-- ==== Sys2Proof/Word.lean ====
section
/-! DEFINITION. The words of the engine: the 32-bit command word (30_encoding R90), the elements of the four
buffers (10_state R37) and the fields of the registers (R33 to R36). All are unsigned (00_scope R9). -/

namespace Sys2Proof

/-- A command word (R90) or a value returned by the register read port (R26). -/
abbrev Word := BitVec 32

/-- A packed byte, one DAT element (R37). -/
abbrev Byte := BitVec 8

/-- A pen as an IDX element holds it, 4 bits in every mode (R39). -/
abbrev Pen := BitVec 4

/-- An ink code as BGINK and INKMAP hold it, 5 bits (R34, R36). -/
abbrev InkCode := BitVec 5

/-- One colour channel, `CW` = 8 bits (R8, R12). -/
abbrev Channel := BitVec 8

/-- A code of the DIAG trace (R40). -/
abbrev DiagCode := BitVec 8

/-- An RGB triple (R12): three named channels, never packed into a word. -/
structure Rgb where
  r : Channel
  g : Channel
  b : Channel
  deriving DecidableEq, Repr, Inhabited

/-- A pixel (R12): four named channels, never packed into a word. -/
structure Pixel where
  r : Channel
  g : Channel
  b : Channel
  a : Channel
  deriving DecidableEq, Repr, Inhabited

end Sys2Proof
end

