-- ==== Sys2Proof/Config.lean ====
section
/-! DEFINITION. The parameters the spec leaves OPEN (00_scope R8, 10_state R41): fixed before reset, never written by
a command, a host access or reset. The machine runs with `Config.params`, an opaque constant without a body, so that a
proof can use no value of it (log 1). Every shared operation takes the parameters as an argument, so that a claim can
quantify over them and a test can give them the values of 95_test_vectors section 2. -/

namespace Sys2Proof

/-- `DUP_PEN_POLICY` (R8, R216, 90_conflicts C2): what SETINK does to a pen already mapped. -/
inductive DupPenPolicy where
  | firstWins
  | lastWins
  deriving DecidableEq, Repr, Inhabited

/-- The OPEN parameters of R8. The two capacities are held as their predecessors, so that the ranges R8 gives them,
`1 <= CAP_GRID <= 2^24` and `1 <= CAP_DAT <= 2^24 - 1`, are facts of the type and every admitted value is a value of
it (log 2). That the entries of one palette are pairwise distinct (R8, R283) is NOT built in: the properties that need
it say so by `Params.palettesDistinct` (93 U15, log 3). -/
structure Params where
  /-- `PAL[0]`, 16 entries (R120). -/
  pal0 : Vector Rgb 16
  /-- `PAL[1]`, 4 entries. -/
  pal1 : Vector Rgb 4
  /-- `PAL[2]`, 2 entries. -/
  pal2 : Vector Rgb 2
  /-- `HWCOL`, `NHW` = 27 entries indexed by ink code (R190). -/
  hwcol : Vector Rgb 27
  /-- `CAP_GRID - 1`. -/
  capGridPred : BitVec 24
  /-- `CAP_DAT - 1`. -/
  capDatPred : Fin 16777215
  /-- `DUP_PEN_POLICY`. -/
  dupPolicy : DupPenPolicy
  deriving DecidableEq, Repr, Inhabited

/-- `CAP_GRID`: the capacity in elements of PIX, IDX and RGB, each (R8). -/
def Params.capGrid (cfg : Params) : Nat := cfg.capGridPred.toNat + 1

/-- `CAP_DAT`: the capacity in bytes of DAT (R8). -/
def Params.capDat (cfg : Params) : Nat := cfg.capDatPred.val + 1

/-- The parameters this engine was built with. No body: nothing can evaluate it. -/
opaque Config.params : Params

end Sys2Proof
end

