-- ==== Sys2Proof/Syntax.lean ====
section
/-! DEFINITION. The commands, one constructor per row of spec/opcode_table.json (seventeen instructions, 30_encoding
R94, and the three legal words with M = 3 of R97), and the assembler lines of R100 and R101. The mode of a row is part
of its mnemonic, so it is part of the constructor. Every operand has exactly the width of its field (R93). -/

namespace Sys2Proof

/-- The three pixel modes; no other exists (00_scope R2). -/
inductive Mode where
  | m0
  | m1
  | m2
  deriving DecidableEq, Repr

/-- A command of the engine. -/
inductive Instr where
  /-- SETW imm16 (R211). -/
  | setw (imm16 : BitVec 16)
  /-- SETH imm16 (R212). -/
  | seth (imm16 : BitVec 16)
  /-- SETLEN imm24 (R213). -/
  | setlen (imm24 : BitVec 24)
  /-- SETTI v, idx (R214). -/
  | setti (v : Bool) (idx : Pen)
  /-- SETBG v, ink (R215). -/
  | setbg (v : Bool) (ink : InkCode)
  /-- SETINK pen, ink (R216). -/
  | setink (pen : Pen) (ink : InkCode)
  /-- CLRINK (R217). -/
  | clrink
  /-- MATCH.0 (R127). -/
  | match0
  /-- MATCH.1 (R128). -/
  | match1
  /-- MATCH.2 (R129). -/
  | match2
  /-- PACK.0 (R157). -/
  | pack0
  /-- PACK.1 (R158). -/
  | pack1
  /-- PACK.2 (R159). -/
  | pack2
  /-- UNPACK.0 (R187). -/
  | unpack0
  /-- UNPACK.1 (R188). -/
  | unpack1
  /-- UNPACK.2 (R189). -/
  | unpack2
  /-- RESOLVE (R193). -/
  | resolve
  /-- MATCH with M = 3: a legal word that always raises E_MODE (R97). -/
  | match3
  /-- PACK with M = 3 (R97). -/
  | pack3
  /-- UNPACK with M = 3 (R97). -/
  | unpack3
  deriving DecidableEq, Repr

/-- One assembler line of R100, or a pseudo-instruction of R101, with its operands as the numbers written down. -/
inductive AsmLine where
  | setw (n : Nat)
  | seth (n : Nat)
  | setlen (n : Nat)
  | setti (idx : Nat)
  | settiOff
  | setbg (ink : Nat)
  | setbgOff
  | setink (pen ink : Nat)
  | clrink
  | matchMode (m : Nat)
  | packMode (m : Nat)
  | unpackMode (m : Nat)
  | resolve
  /-- Pseudo-instruction `INK pen, ink` (R101). -/
  | inkPair (pen ink : Nat)
  /-- Pseudo-instruction `ENCODE.m` (R101). -/
  | encodeMode (m : Nat)
  /-- Pseudo-instruction `DECODE.m` (R101). -/
  | decodeMode (m : Nat)
  deriving DecidableEq, Repr

end Sys2Proof
end

