-- ==== Sys2Proof/WellFormed.lean ====
section
/-! DEFINITION. What is well formed: a command word (30_encoding R96), an assembler line (R100), the palettes
(00_scope R8, 93 U15). A term of `Instr` needs no check: its operand types are exactly the field widths of R92 and R93,
so every term is well formed. -/

namespace Sys2Proof

/-- The field `w[hi:lo]` as an unsigned number (R9). -/
def wordField (w : Word) (hi lo : Nat) : Nat := w.toNat / 2 ^ lo % 2 ^ (hi - lo + 1)

/-- One row of R96: an OP value and the fields that must be zero, each as (hi, lo). -/
structure LegalRow where
  op : Nat
  zeroFields : List (Nat × Nat)
  deriving DecidableEq, Repr

/-- The table of R96. OP 0, C, D, E and F have no row: they are never legal. -/
def legalRows : List LegalRow :=
  [ { op := 1, zeroFields := [(27, 16)] },
    { op := 2, zeroFields := [(27, 16)] },
    { op := 3, zeroFields := [(27, 24)] },
    { op := 4, zeroFields := [(27, 5)] },
    { op := 5, zeroFields := [(27, 6)] },
    { op := 6, zeroFields := [(27, 12), (7, 5)] },
    { op := 7, zeroFields := [(27, 0)] },
    { op := 11, zeroFields := [(27, 0)] },
    { op := 8, zeroFields := [(25, 0)] },
    { op := 9, zeroFields := [(25, 0)] },
    { op := 10, zeroFields := [(25, 0)] } ]

/-- A word is legal exactly when it matches one row of R96. -/
def legalWord (w : Word) : Bool :=
  legalRows.any fun row =>
    wordField w 31 28 == row.op && row.zeroFields.all fun f => wordField w f.1 f.2 == 0

/-- The operand ranges of R100: the assembler refuses a line outside them. The mode of a pseudo-instruction takes the
range of the two lines it stands for (log 18). -/
def AsmLine.wellFormed : AsmLine → Bool
  | .setw n => n ≤ 65535
  | .seth n => n ≤ 65535
  | .setlen n => n ≤ 16777215
  | .setti idx => idx ≤ 15
  | .settiOff => true
  | .setbg ink => ink ≤ 31
  | .setbgOff => true
  | .setink pen ink => pen ≤ 15 && ink ≤ 31
  | .clrink => true
  | .matchMode m => m ≤ 3
  | .packMode m => m ≤ 3
  | .unpackMode m => m ≤ 3
  | .resolve => true
  | .inkPair pen ink => pen ≤ 15 && ink ≤ 31
  | .encodeMode m => m ≤ 3
  | .decodeMode m => m ≤ 3

/-- The entries of each palette are pairwise distinct (R8, R283). -/
def Params.palettesDistinct (cfg : Params) : Bool :=
  decide (cfg.pal0.toList.Pairwise (· ≠ ·)) && decide (cfg.pal1.toList.Pairwise (· ≠ ·)) &&
    decide (cfg.pal2.toList.Pairwise (· ≠ ·))

end Sys2Proof
end

