-- ==== Sys2Proof/Decode.lean ====
section
/-! DEFINITION. The decoder of 30_encoding R95 (steps 2 to 4, up to the selection of the instruction), R96 and R97,
total on every word and rejecting by name, and after it the encoder, written from the words of R94 and R100. -/

namespace Sys2Proof

/-- Why a word is not legal (R96). Both reasons raise E_ILLEGAL (R95 step 2). -/
inductive DecodeReject where
  /-- OP is 0, C, D, E or F. -/
  | reservedOp (op : BitVec 4)
  /-- A bit the format does not name is set: M where no mode is taken, MBZ, or a part of IMM. -/
  | mustBeZero (op : BitVec 4)
  deriving DecidableEq, Repr

/-- The instruction a mode field selects, for OP 8, 9 and A (R94, R97). -/
def selectMode (m : BitVec 2) (i0 i1 i2 i3 : Instr) : Instr :=
  match m.toNat with
  | 0 => i0
  | 1 => i1
  | 2 => i2
  | _ => i3

/-- An instruction, if the bits its format does not name are zero. -/
def whenZero (zero : Bool) (op : BitVec 4) (i : Instr) : Except DecodeReject Instr :=
  if zero then .ok i else .error (.mustBeZero op)

/-- The decoder. `w.extractLsb' lo n` is the field of `n` bits from bit `lo` up. -/
def decode (w : Word) : Except DecodeReject Instr :=
  let op := w.extractLsb' 28 4
  let m := w.extractLsb' 26 2
  match op.toNat with
  | 1 => whenZero (w.extractLsb' 16 12 == 0) op (.setw (w.extractLsb' 0 16))
  | 2 => whenZero (w.extractLsb' 16 12 == 0) op (.seth (w.extractLsb' 0 16))
  | 3 => whenZero (w.extractLsb' 24 4 == 0) op (.setlen (w.extractLsb' 0 24))
  | 4 => whenZero (w.extractLsb' 5 23 == 0) op (.setti (w.extractLsb' 4 1 == 1) (w.extractLsb' 0 4))
  | 5 => whenZero (w.extractLsb' 6 22 == 0) op (.setbg (w.extractLsb' 5 1 == 1) (w.extractLsb' 0 5))
  | 6 =>
    whenZero (w.extractLsb' 12 16 == 0 && w.extractLsb' 5 3 == 0) op
      (.setink (w.extractLsb' 8 4) (w.extractLsb' 0 5))
  | 7 => whenZero (w.extractLsb' 0 28 == 0) op .clrink
  | 8 => whenZero (w.extractLsb' 0 26 == 0) op (selectMode m .match0 .match1 .match2 .match3)
  | 9 => whenZero (w.extractLsb' 0 26 == 0) op (selectMode m .pack0 .pack1 .pack2 .pack3)
  | 10 => whenZero (w.extractLsb' 0 26 == 0) op (selectMode m .unpack0 .unpack1 .unpack2 .unpack3)
  | 11 => whenZero (w.extractLsb' 0 28 == 0) op .resolve
  | _ => .error (.reservedOp op)

/-- The word of an instruction, by the sums of R100 and the words of R94. -/
def encode : Instr → Word
  | .setw n => BitVec.ofNat 32 (0x10000000 + n.toNat)
  | .seth n => BitVec.ofNat 32 (0x20000000 + n.toNat)
  | .setlen n => BitVec.ofNat 32 (0x30000000 + n.toNat)
  | .setti v idx => BitVec.ofNat 32 (0x40000000 + v.toNat * 16 + idx.toNat)
  | .setbg v ink => BitVec.ofNat 32 (0x50000000 + v.toNat * 32 + ink.toNat)
  | .setink pen ink => BitVec.ofNat 32 (0x60000000 + pen.toNat * 256 + ink.toNat)
  | .clrink => 0x70000000
  | .match0 => 0x80000000
  | .match1 => 0x84000000
  | .match2 => 0x88000000
  | .match3 => 0x8C000000
  | .pack0 => 0x90000000
  | .pack1 => 0x94000000
  | .pack2 => 0x98000000
  | .pack3 => 0x9C000000
  | .unpack0 => 0xA0000000
  | .unpack1 => 0xA4000000
  | .unpack2 => 0xA8000000
  | .unpack3 => 0xAC000000
  | .resolve => 0xB0000000

/-- The instruction the decoder reads from an opcode-table row's bits. Every command is one 32-bit word (R90), so the
bits above `nbits` are zero. -/
def decodeTableWord (nbits w : Nat) : Option Instr :=
  match decode (BitVec.ofNat 32 (w % 2 ^ nbits)) with
  | .ok i => some i
  | .error _ => none

end Sys2Proof
end

