-- ==== Sys2Proof/Machine/State.lean ====
section
/-! DEFINITION. The state of the machine as plain data (10_state R21, "and nothing else"), the host's pending actions
and the ports' answers (the model's own two fields, log 8 and 10), the faults and refusals, and the state after reset
(10_state section 10, 70 R280). -/

namespace Sys2Proof.Machine

/-- TINK (R33): the transparent-ink override. -/
structure TransparentInk where
  v : Bool
  idx : Pen
  deriving DecidableEq, Repr

/-- BGINK (R34) and each INKMAP entry (R36): V and an ink code. -/
structure InkEntry where
  v : Bool
  ink : InkCode
  deriving DecidableEq, Repr

/-- The four address spaces (20_memory R60). -/
inductive Space where
  | pix
  | idx
  | dat
  | rgb
  deriving DecidableEq, Repr

/-- One buffer: the elements written since reset, each with its index, indices strictly rising. An index not listed
holds no known value (R38, R73; log 4). For DAT this is a list of the host's `Cell`s. -/
abbrev Buffer (α : Type) := List (Nat × α)

/-- The canonical form of one buffer: indices strictly rising. -/
def Buffer.wf {α : Type} : Buffer α → Bool
  | [] => true
  | [_] => true
  | a :: b :: rest => decide (a.1 < b.1) && Buffer.wf (b :: rest)

/-- The four buffers (R37). -/
structure Memory where
  pix : Buffer Pixel
  idx : Buffer Pen
  dat : Buffer Byte
  rgb : Buffer Rgb
  deriving DecidableEq, Repr

/-- All four buffers are in canonical form. -/
def Memory.wf (m : Memory) : Bool :=
  Buffer.wf m.pix && Buffer.wf m.idx && Buffer.wf m.dat && Buffer.wf m.rgb

/-- One whole element of a space, the unit of every access (R61). -/
inductive Elem where
  | pix (p : Pixel)
  | idx (p : Pen)
  | dat (b : Byte)
  | rgb (c : Rgb)
  deriving DecidableEq, Repr

/-- What the host can do to the engine (R20, R26, R69, R252). Observing DIAG needs no action: it changes nothing. -/
inductive HostAction where
  /-- Write one word to the command port (R24, R75). -/
  | command (w : Word)
  /-- Write element `i` of the space `e` belongs to (R62, R69). -/
  | write (i : Nat) (e : Elem)
  /-- Read element `i` of a space (R62, R69). -/
  | read (sp : Space) (i : Nat)
  /-- Read register `n` through the register read port (R26). -/
  | readReg (n : Nat)
  /-- Assert reset between commands (R280). -/
  | reset
  deriving DecidableEq, Repr

/-- What a port returned to the host. -/
inductive HostReply where
  | elem (e : Elem)
  | reg (v : Word)
  deriving DecidableEq, Repr

/-- The errors the engine can raise (60_exceptions R241). Code 3, `E_EMPTY`, is reserved and never raised (R243), so
it has no constructor (93 U8). -/
inductive ErrorKind where
  | mode
  | malformed
  | illegal
  | capacity
  | index
  deriving DecidableEq, Repr

/-- The warnings (R244). -/
inductive Warning where
  | palette
  | missInk
  | inkSkip
  | inkDup
  deriving DecidableEq, Repr

/-- Why the model stops with a fault. Neither is an event of the engine, which has no "valid" bit and raises no error
here (R73). Both are safe: the model stops where the hardware goes on. -/
inductive Fault where
  /-- Raised by MATCH, PACK, UNPACK, RESOLVE and a host read that reads an element nothing has written since reset
  (R73, 93 U5: "a model treats a command's read of it as a fault of the model"). Safe. -/
  | unwrittenElement (sp : Space) (i : Nat)
  /-- Raised by RESOLVE when a valid BGINK or INKMAP entry holds an ink code of 27 or more. R34, R36 and R218 exclude
  it in every state a run reaches (`Obligations.StepKeepsStoredInksValid`); log 14. Safe. -/
  | inkNotInTable (ink : InkCode)
  deriving DecidableEq, Repr

/-- Why the model gives an action no meaning. -/
inductive Refusal where
  /-- An instruction whose meaning is not written yet, by its mnemonic: no arm of `exec` uses it. Safe. -/
  | notModelled (mnemonic : String)
  /-- A host access outside `0 .. capacity-1` (R62, 93 U14: "`refuse`: the ports have no such address"). Safe. -/
  | noSuchElement (sp : Space) (i : Nat)
  /-- A host read of a register number above 31 (R26, 93 U14). Safe. -/
  | noSuchRegister (n : Nat)
  deriving DecidableEq, Repr

/-- The state. STATUS is the pair of flags (R30), so it is stored as them and read by `readRegister`. -/
structure State where
  /-- WIDTH, register 3 (R22). -/
  width : BitVec 16
  /-- HEIGHT, register 4 (R23). -/
  height : BitVec 16
  /-- LEN, register 5 (R25). -/
  len : BitVec 24
  /-- STATUS.FATAL (R27, R30). -/
  fatal : Bool
  /-- STATUS.WARNED (R27, R30). -/
  warned : Bool
  /-- LASTERR, register 1 (R31). -/
  lastErr : BitVec 4
  /-- ERRCNT, register 2 (R32). -/
  errCnt : BitVec 32
  /-- TINK, register 6 (R33). -/
  tink : TransparentInk
  /-- BGINK, register 7 (R34). -/
  bgink : InkEntry
  /-- INKMAP[0..15], registers 16 to 31 (R36). -/
  inkMap : Vector InkEntry 16
  /-- PIX, IDX, DAT and RGB (R37). -/
  mem : Memory
  /-- The DIAG trace, newest code last (R40, log 20). -/
  diag : List DiagCode
  /-- The model's own: the actions the host has still to perform, oldest first (log 8). -/
  hostQueue : List HostAction
  /-- The model's own: what the read ports have returned, newest last (log 10). -/
  replies : List HostReply
  deriving DecidableEq, Repr

/-- One step's outcome. -/
abbrev Result := Host.Outcome State Fault Refusal

/-- The state right after reset: every register and flag as 10_state section 10 gives it, no element written, an empty
trace; the model's own two fields empty (log 8, log 10). -/
def State.reset : State where
  width := 0
  height := 0
  len := 0
  fatal := false
  warned := false
  lastErr := 0
  errCnt := 0
  tink := { v := false, idx := 0 }
  bgink := { v := false, ink := 0 }
  inkMap := Vector.replicate 16 { v := false, ink := 0 }
  mem := { pix := [], idx := [], dat := [], rgb := [] }
  diag := []
  hostQueue := []
  replies := []

end Sys2Proof.Machine
end

