-- ==== Sys2Proof/Machine/Ops.lean ====
section
/-! DEFINITION. The named operations over buffers and registers, each written once: element read and write
(20_memory R62), reading and writing a block from element 0 (R68), the register updates, emitting on DIAG (R40),
raising an error (60_exceptions R246), completing a command (R31) and reset (70 R280). There is no return from an
error: after an isolating error the engine is ready at once (R248), and FATAL is left by reset alone (R249). -/

namespace Sys2Proof.Machine

variable {α : Type}

/-- `MemRead(S, i, 1)` (R62): the element at `i`, or none where nothing has been written since reset. -/
def memRead : Buffer α → Nat → Option α
  | [], _ => none
  | (k, v) :: rest, i => if k = i then some v else memRead rest i

/-- `MemWrite(S, i, 1, v)` (R62), keeping the canonical form. -/
def memWrite : Buffer α → Nat → α → Buffer α
  | [], i, v => [(i, v)]
  | (k, w) :: rest, i, v =>
    if i < k then (i, v) :: (k, w) :: rest
    else if i = k then (i, v) :: rest
    else (k, w) :: memWrite rest i v

/-- `S[i] <- v_0, S[i+1] <- v_1, ...`, one element write each. -/
def memWriteFrom (b : Buffer α) (i : Nat) : List α → Buffer α
  | [] => b
  | v :: vs => memWriteFrom (memWrite b i v) (i + 1) vs

/-- Write a command's whole output, which always starts at element 0 (R68). -/
def memWriteBlock (b : Buffer α) (vs : List α) : Buffer α := memWriteFrom b 0 vs

/-- Read `n` elements from `i` up, in that order, stopping at the first that nothing has written. -/
def memReadFrom (b : Buffer α) (i : Nat) : Nat → Except Nat (List α)
  | 0 => .ok []
  | n + 1 =>
    match memRead b i with
    | none => .error i
    | some v =>
      match memReadFrom b (i + 1) n with
      | .error k => .error k
      | .ok vs => .ok (v :: vs)

/-- Read a command's whole input, which always starts at element 0 (R68). -/
def memReadBlock (b : Buffer α) (n : Nat) : Except Nat (List α) := memReadFrom b 0 n

/-- The capacity of a space in elements (R37, R60). -/
def capacity (cfg : Params) : Space → Nat
  | .pix => cfg.capGrid
  | .idx => cfg.capGrid
  | .dat => cfg.capDat
  | .rgb => cfg.capGrid

/-- The space an element belongs to. -/
def Elem.space : Elem → Space
  | .pix _ => .pix
  | .idx _ => .idx
  | .dat _ => .dat
  | .rgb _ => .rgb

/-- Write one element of any space. -/
def memWriteElem (m : Memory) (i : Nat) : Elem → Memory
  | .pix p => { m with pix := memWrite m.pix i p }
  | .idx p => { m with idx := memWrite m.idx i p }
  | .dat b => { m with dat := memWrite m.dat i b }
  | .rgb c => { m with rgb := memWrite m.rgb i c }

/-- Read one element of any space. -/
def memReadElem (m : Memory) (sp : Space) (i : Nat) : Option Elem :=
  match sp with
  | .pix => (memRead m.pix i).map .pix
  | .idx => (memRead m.idx i).map .idx
  | .dat => (memRead m.dat i).map .dat
  | .rgb => (memRead m.rgb i).map .rgb

/-- `R.WIDTH <- v`. -/
def State.setWidth (s : State) (v : BitVec 16) : State := { s with width := v }

/-- `R.HEIGHT <- v`. -/
def State.setHeight (s : State) (v : BitVec 16) : State := { s with height := v }

/-- `R.LEN <- v`. -/
def State.setLen (s : State) (v : BitVec 24) : State := { s with len := v }

/-- `R.TINK <- v`. -/
def State.setTink (s : State) (v : TransparentInk) : State := { s with tink := v }

/-- `R.BGINK <- v`. -/
def State.setBgink (s : State) (v : InkEntry) : State := { s with bgink := v }

/-- The whole INKMAP file. -/
def State.setInkMap (s : State) (v : Vector InkEntry 16) : State := { s with inkMap := v }

/-- The buffers. -/
def State.setMem (s : State) (m : Memory) : State := { s with mem := m }

/-- `R.LASTERR <- v`. -/
def State.setLastErr (s : State) (v : BitVec 4) : State := { s with lastErr := v }

/-- `emit(code)` (R11, R40): append one event to the trace. -/
def State.emit (s : State) (code : DiagCode) : State := { s with diag := s.diag ++ [code] }

/-- What a read port returned (log 10). -/
def State.reply (s : State) (r : HostReply) : State := { s with replies := s.replies ++ [r] }

/-- The host's remaining actions (log 8). -/
def State.setHostQueue (s : State) (q : List HostAction) : State := { s with hostQueue := q }

/-- INKMAP[q] (R36). -/
def State.inkEntry (s : State) (q : Pen) : InkEntry := s.inkMap[q.toNat]'q.isLt

/-- `INKMAP[q] <- e` (R36). -/
def State.setInkEntry (s : State) (q : Pen) (e : InkEntry) : State :=
  s.setInkMap (s.inkMap.set q.toNat e q.isLt)

/-- The cause codes of R241. -/
def ErrorKind.code : ErrorKind → BitVec 4
  | .mode => 1
  | .malformed => 2
  | .illegal => 4
  | .capacity => 5
  | .index => 6

/-- The event an error emits is its cause code (R40, R241). -/
def ErrorKind.event (e : ErrorKind) : DiagCode := e.code.setWidth 8

/-- The only fatal error is the mode error (R240, R249). -/
def ErrorKind.isFatal : ErrorKind → Bool
  | .mode => true
  | .malformed => false
  | .illegal => false
  | .capacity => false
  | .index => false

/-- The warning codes of R244. -/
def Warning.code : Warning → DiagCode
  | .palette => 0x10
  | .missInk => 0x11
  | .inkSkip => 0x12
  | .inkDup => 0x13

/-- A DIAG code below 0x10 is an error code (R244). -/
def isErrorEvent (c : DiagCode) : Bool := decide (c.toNat < 0x10)

/-- `min(R.ERRCNT + 1, 2^32 - 1)` (R32, R246). -/
def countError (n : BitVec 32) : BitVec 32 := if n = BitVec.allOnes 32 then n else n + 1

/-- The state `raise E(code)` leaves (R246): LASTERR, ERRCNT, DIAG and, for E_MODE, FATAL; nothing else. -/
def State.raised (s : State) (e : ErrorKind) : State :=
  { s with
    lastErr := e.code
    errCnt := countError s.errCnt
    diag := s.diag ++ [e.event]
    fatal := s.fatal || e.isFatal }

/-- `raise E(code)` (R246): the command ends here, and the engine is ready for the next one (R248). -/
def raise (e : ErrorKind) (s : State) : Result := .next (s.raised e)

/-- A command completed, with or without warnings: `R.LASTERR <- 0` (R31). -/
def complete (s : State) : Result := .next (s.setLastErr 0)

/-- The reset event (R280 to R282): every register and flag takes its reset value, the trace starts empty, no element
counts as written (R38, R73; log 6). The host's own record and its remaining actions stay (log 12). -/
def State.resetEngine (s : State) : State :=
  { State.reset with hostQueue := s.hostQueue, replies := s.replies }

end Sys2Proof.Machine
end

