-- ==== Sys2Proof/Machine/Operands.lean ====
section
/-! DEFINITION. What a command's operands are: the mode constants (00_scope R2), `ceil_div` (R10), the grid and row
sizes (20_memory R64, R65), the ink range check (43 R218) and the tables read through the parameters (40 R120,
42 R190, R192). -/

namespace Sys2Proof.Machine

/-- `bpp(m)`: bits per pixel (R2, 90_conflicts C1). -/
def bpp : Mode → Nat
  | .m0 => 4
  | .m1 => 2
  | .m2 => 1

/-- `ppb(m)`: pixels per byte (R2). -/
def ppb : Mode → Nat
  | .m0 => 2
  | .m1 => 4
  | .m2 => 8

/-- `ncol(m)`: palette size (R2). -/
def ncol : Mode → Nat
  | .m0 => 16
  | .m1 => 4
  | .m2 => 2

/-- `ceil_div(a, b)` for `b > 0` (R10). -/
def ceilDiv (a b : Nat) : Nat := (a + b - 1) / b

/-- `bpr`: the bytes of one row of `w` pens (R65, R150). -/
def bytesPerRow (m : Mode) (w : Nat) : Nat := ceilDiv w (ppb m)

/-- `W * H`, the elements of the grid (R64). -/
def State.gridSize (s : State) : Nat := s.width.toNat * s.height.toNat

/-- `bpr * H`, the bytes of the packed grid (R65, R155). -/
def State.packedSize (m : Mode) (s : State) : Nat := bytesPerRow m s.width.toNat * s.height.toNat

/-- `H' = LEN div bpr`, the height UNPACK derives (R182). -/
def State.derivedHeight (m : Mode) (s : State) : Nat := s.len.toNat / bytesPerRow m s.width.toNat

/-- `NHW`, the entries of the hardware-colour table (R7, R8). -/
def nhw : Nat := 27

/-- `ink_ok(k)` (R218). -/
def inkOk (k : InkCode) : Bool := decide (k.toNat < nhw)

/-- `PAL[m]` (R120): its entries, pen 0 first. -/
def palette (cfg : Params) : Mode → List Rgb
  | .m0 => cfg.pal0.toList
  | .m1 => cfg.pal1.toList
  | .m2 => cfg.pal2.toList

/-- `pal_rgb(m, i) = PAL[m][i]` (R121), none where it is undefined. -/
def palRgb (cfg : Params) (m : Mode) (i : Nat) : Option Rgb := (palette cfg m)[i]?

/-- `HWCOL[k]` (R190), none beyond the table. -/
def hwcolEntry (cfg : Params) (k : InkCode) : Option Rgb := cfg.hwcol[k.toNat]?

/-- `UNKNOWN_RGB` (R192). -/
def unknownRgb : Rgb := { r := 255, g := 0, b := 255 }

end Sys2Proof.Machine
end

