-- ==== Sys2Proof/Machine/Flags.lean ====
section
/-! DEFINITION. The flags: WARNED with its one-shot warning (40 R125), and STATUS, the view of both flags (10_state
R30). FATAL is set by `State.raised` (60_exceptions R246, R249). No arithmetic result sets a flag (R27). -/

namespace Sys2Proof.Machine

/-- `note_inexact()` (R125): on the first out-of-palette event of the run emit W_PALETTE and set WARNED; later ones
are silent. -/
def State.noteInexact (s : State) : State :=
  if s.warned then s else { s.emit Warning.palette.code with warned := true }

/-- STATUS (R30): bit 0 FATAL, bit 1 WARNED, the rest zero. -/
def State.status (s : State) : Word :=
  (BitVec.ofBool s.warned ++ BitVec.ofBool s.fatal).setWidth 32

end Sys2Proof.Machine
end

