-- ==== Sys2Proof/Machine/Configure.lean ====
section
/-! DEFINITION. The seven configuration instructions (43_config_commands R210 to R218). -/

namespace Sys2Proof.Machine

/-- SETW imm16 (R211). -/
def execSetw (imm16 : BitVec 16) (s : State) : Result := complete (s.setWidth imm16)

/-- SETH imm16 (R212). -/
def execSeth (imm16 : BitVec 16) (s : State) : Result := complete (s.setHeight imm16)

/-- SETLEN imm24 (R213). -/
def execSetlen (imm24 : BitVec 24) (s : State) : Result := complete (s.setLen imm24)

/-- SETTI v, idx (R214): IDX is stored as given, also when V = 0. -/
def execSetti (v : Bool) (idx : Pen) (s : State) : Result := complete (s.setTink { v := v, idx := idx })

/-- SETBG v, ink (R215). -/
def execSetbg (v : Bool) (ink : InkCode) (s : State) : Result :=
  if v = false then complete (s.setBgink { v := false, ink := 0 })
  else if inkOk ink then complete (s.setBgink { v := true, ink := ink })
  else complete (s.emit Warning.inkSkip.code)

/-- SETINK pen, ink under a given `DUP_PEN_POLICY` (R216): the ink test comes before the duplicate test. -/
def setInkCommand (policy : DupPenPolicy) (pen : Pen) (ink : InkCode) (s : State) : Result :=
  if inkOk ink = false then complete (s.emit Warning.inkSkip.code)
  else if (s.inkEntry pen).v then
    let warned := s.emit Warning.inkDup.code
    match policy with
    | .firstWins => complete warned
    | .lastWins => complete (warned.setInkEntry pen { v := true, ink := ink })
  else complete (s.setInkEntry pen { v := true, ink := ink })

/-- SETINK pen, ink (R216). -/
def execSetink (pen : Pen) (ink : InkCode) (s : State) : Result :=
  setInkCommand Config.params.dupPolicy pen ink s

/-- CLRINK (R217): V and INK of all sixteen entries. -/
def execClrink (s : State) : Result :=
  complete (s.setInkMap (Vector.replicate 16 { v := false, ink := 0 }))

end Sys2Proof.Machine
end

