-- ==== Sys2Proof/Machine/Matcher.lean ====
section
/-! DEFINITION. The colour matcher and the MATCH instructions (40_color_matcher R120 to R130). -/

namespace Sys2Proof.Machine

/-- The square of one channel's signed difference (R122), an exact integer in 0..65025. -/
def sqDiff (x y : Channel) : Nat :=
  let d : Int := (x.toNat : Int) - (y.toNat : Int)
  (d * d).toNat

/-- `dist2(c, q)` (R122): squared Euclidean distance in RGB space. -/
def dist2 (c q : Rgb) : Nat := sqDiff c.r q.r + sqDiff c.g q.g + sqDiff c.b q.b

/-- The loop of `nearest` (R123) over the entries from index `i` up: strictly less, so an equal distance keeps the
lower index. -/
def nearestLoop (c : Rgb) : List Rgb → Nat → Nat → Nat → Nat × Nat
  | [], _, best, bestd => (best, bestd)
  | q :: qs, i, best, bestd =>
    if dist2 c q < bestd then nearestLoop c qs (i + 1) i (dist2 c q) else nearestLoop c qs (i + 1) best bestd

/-- `nearest(m, c)` over the entries of one palette (R123): the index of the minimum and the least distance. The
empty list is no palette (R2), so its line is never used. -/
def nearestIn (c : Rgb) : List Rgb → Nat × Nat
  | [] => (0, 0)
  | q :: qs => nearestLoop c qs 1 0 (dist2 c q)

/-- `nearest(m, c)` (R123). -/
def nearest (cfg : Params) (m : Mode) (c : Rgb) : Nat × Nat := nearestIn c (palette cfg m)

/-- The colour of a pixel: alpha takes no part in the distance (R122). -/
def Pixel.rgb (px : Pixel) : Rgb := { r := px.r, g := px.g, b := px.b }

/-- `match_px(m, px)` (R124): the pen, and whether the match was inexact. -/
def matchPx (cfg : Params) (m : Mode) (tink : TransparentInk) (px : Pixel) : Pen × Bool :=
  if px.a = 0 ∧ tink.v = true then (tink.idx, false)
  else
    let best := nearest cfg m (Pixel.rgb px)
    (BitVec.ofNat 4 best.1, decide (best.2 ≠ 0))

/-- The state MATCH.m leaves when it has read the pixels `pxs` (R126). -/
def State.matched (s : State) (cfg : Params) (m : Mode) (pxs : List Pixel) : State :=
  let results := pxs.map (matchPx cfg m s.tink)
  let s1 := s.setMem { s.mem with idx := memWriteBlock s.mem.idx (results.map Prod.fst) }
  if results.any Prod.snd then s1.noteInexact else s1

/-- MATCH.m, the common semantics of R126. -/
def matchCommand (cfg : Params) (m : Mode) (s : State) : Result :=
  if s.gridSize > cfg.capGrid then raise .capacity s
  else
    match memReadBlock s.mem.pix s.gridSize with
    | .error i => .fault (.unwrittenElement .pix i)
    | .ok pxs => complete (s.matched cfg m pxs)

/-- MATCH.0 (R127). -/
def execMatch0 (s : State) : Result := matchCommand Config.params .m0 s

/-- MATCH.1 (R128). -/
def execMatch1 (s : State) : Result := matchCommand Config.params .m1 s

/-- MATCH.2 (R129). -/
def execMatch2 (s : State) : Result := matchCommand Config.params .m2 s

/-- MATCH with M = 3 (R95 step 3, R97): E_MODE, before any operand or buffer is looked at. -/
def execMatch3 (s : State) : Result := raise .mode s

end Sys2Proof.Machine
end

