-- ==== Sys2Proof/Machine/Interleave.lean ====
section
/-! DEFINITION. The bit-interleave table `POS` and the six byte-level functions `pack_byte` and `unpack_byte`
(41_pixel_packer R151 to R153, 42_pixel_unpacker R180, R181). One table serves both directions (R180). The values are
the spec's own, from general knowledge (R151, 93 G1; log 15). -/

namespace Sys2Proof.Machine

/-- The table of R151: one row per slot `k`, one column per pen bit `j`. -/
def posTable : Mode → List (List Nat)
  | .m0 => [[7, 3, 5, 1], [6, 2, 4, 0]]
  | .m1 => [[7, 3], [6, 2], [5, 1], [4, 0]]
  | .m2 => [[7], [6], [5], [4], [3], [2], [1], [0]]

/-- `POS[m][k][j]` (R151), for `k < ppb(m)` and `j < bpp(m)`. -/
def posBit (m : Mode) (k j : Nat) : Nat := ((posTable m).getD k []).getD j 0

/-- `v[i] <- x` on an `n`-bit value. -/
def putBit {n : Nat} (v : BitVec n) (i : Nat) (x : Bool) : BitVec n :=
  if x then v ||| BitVec.twoPow n i else v &&& ~~~(BitVec.twoPow n i)

/-- The inner loop of `pack_byte` (R153): the bits of the pen in slot `k`. -/
def packSlot (m : Mode) (b : Byte) (k : Nat) (p : Pen) : Byte :=
  (List.range (bpp m)).foldl (fun b j => putBit b (posBit m k j) (p.getLsbD j)) b

/-- `pack_byte(m, ch)` (R153): `ch k` is the pen in slot `k`. -/
def packByte (m : Mode) (ch : Nat → Pen) : Byte :=
  (List.range (ppb m)).foldl (fun b k => packSlot m b k (ch k)) 0

/-- `unpack_byte(m, b)[k]` (R181), with the pen zero-extended to an IDX element (R186). -/
def unpackByte (m : Mode) (b : Byte) (k : Nat) : Pen :=
  (List.range (bpp m)).foldl (fun v j => putBit v j (b.getLsbD (posBit m k j))) 0

end Sys2Proof.Machine
end

