-- ==== Sys2Proof/Machine/Packer.lean ====
section
/-! DEFINITION. The pixel packer and the PACK instructions (41_pixel_packer R150 to R160). -/

namespace Sys2Proof.Machine

/-- What PACK's check of its input finds (R156, R160). -/
inductive PenScan where
  /-- An element nothing has written since reset. -/
  | unwritten (i : Nat)
  /-- A pen that is no pen of the mode: E_INDEX. -/
  | outOfRange
  /-- Every pen is one of the mode's. -/
  | pens (ps : List Pen)
  deriving DecidableEq, Repr

/-- `for i in 0 .. n-1: if IDX[i] >= ncol(m): raise E(E_INDEX)` (R156), in that order; it reads no element after the
one that raises (log 7). -/
def scanPensFrom (b : Buffer Pen) (bound i : Nat) : Nat → PenScan
  | 0 => .pens []
  | n + 1 =>
    match memRead b i with
    | none => .unwritten i
    | some p =>
      if bound ≤ p.toNat then .outOfRange
      else
        match scanPensFrom b bound (i + 1) n with
        | .pens ps => .pens (p :: ps)
        | stop => stop

/-- The check of all `n` pens of the grid. -/
def scanPens (b : Buffer Pen) (bound n : Nat) : PenScan := scanPensFrom b bound 0 n

/-- `pen_at(y, c, k)` (R154) over the pens of a grid of width `w`: the pen in slot `k` of chunk `c` of row `y`, 0 where
the slot lies beyond the row. -/
def penAt (m : Mode) (w : Nat) (ps : List Pen) (y c k : Nat) : Pen :=
  if c * ppb m + k < w then ps.getD (y * w + c * ppb m + k) 0 else 0

/-- The bytes PACK.m writes, `h` rows of `bpr` bytes (R155): byte `j` is chunk `j mod bpr` of row `j div bpr`. -/
def packGrid (m : Mode) (w h : Nat) (ps : List Pen) : List Byte :=
  (List.range (bytesPerRow m w * h)).map fun j =>
    packByte m (penAt m w ps (j / bytesPerRow m w) (j % bytesPerRow m w))

/-- The state PACK.m leaves when its grid holds the pens `ps` (R156). -/
def State.packed (s : State) (m : Mode) (ps : List Pen) : State :=
  let bytes := packGrid m s.width.toNat s.height.toNat ps
  (s.setMem { s.mem with dat := memWriteBlock s.mem.dat bytes }).setLen (BitVec.ofNat 24 (s.packedSize m))

/-- PACK.m, the common semantics of R156. -/
def packCommand (cfg : Params) (m : Mode) (s : State) : Result :=
  if s.gridSize > cfg.capGrid ∨ s.packedSize m > cfg.capDat then raise .capacity s
  else
    match scanPens s.mem.idx (ncol m) s.gridSize with
    | .unwritten i => .fault (.unwrittenElement .idx i)
    | .outOfRange => raise .index s
    | .pens ps => complete (s.packed m ps)

/-- PACK.0 (R157). -/
def execPack0 (s : State) : Result := packCommand Config.params .m0 s

/-- PACK.1 (R158). -/
def execPack1 (s : State) : Result := packCommand Config.params .m1 s

/-- PACK.2 (R159). -/
def execPack2 (s : State) : Result := packCommand Config.params .m2 s

/-- PACK with M = 3 (R95 step 3, R97). -/
def execPack3 (s : State) : Result := raise .mode s

end Sys2Proof.Machine
end

