-- ==== Sys2Proof/Machine/Resolver.lean ====
section
/-! DEFINITION. The resolution of pens to RGB and the RESOLVE instruction (42_pixel_unpacker R190 to R193). -/

namespace Sys2Proof.Machine

/-- The colour of a stored ink: a read of `HWCOL`, in range in every state a run reaches (R191; log 14). -/
def inkColour (cfg : Params) (k : InkCode) : Except InkCode Rgb :=
  match hwcolEntry cfg k with
  | some c => .ok c
  | none => .error k

/-- `resolve_pen(q)` (R191): the colour, and whether it is the placeholder. -/
def resolvePen (cfg : Params) (s : State) (q : Pen) : Except InkCode (Rgb × Bool) :=
  if (s.inkEntry q).v then (inkColour cfg (s.inkEntry q).ink).map (·, false)
  else if s.bgink.v then (inkColour cfg s.bgink.ink).map (·, false)
  else .ok (unknownRgb, true)

/-- `resolve_pen` over the pens of the grid, in order. -/
def resolvePens (cfg : Params) (s : State) : List Pen → Except InkCode (List (Rgb × Bool))
  | [] => .ok []
  | q :: qs =>
    match resolvePen cfg s q with
    | .error k => .error k
    | .ok c =>
      match resolvePens cfg s qs with
      | .error k => .error k
      | .ok cs => .ok (c :: cs)

/-- `none_mapped` (R193): no INKMAP entry is valid. -/
def State.noneMapped (s : State) : Bool := s.inkMap.toList.all fun e => !e.v

/-- The state RESOLVE leaves when its pens resolve to `cs` (R193, 90_conflicts C3). -/
def State.resolved (s : State) (cs : List (Rgb × Bool)) : State :=
  let s1 := s.setMem { s.mem with rgb := memWriteBlock s.mem.rgb (cs.map Prod.fst) }
  if !s.bgink.v && (s.noneMapped || cs.any Prod.snd) then s1.emit Warning.missInk.code else s1

/-- RESOLVE (R193), over any parameters. -/
def resolveCommand (cfg : Params) (s : State) : Result :=
  if s.gridSize > cfg.capGrid then raise .capacity s
  else
    match memReadBlock s.mem.idx s.gridSize with
    | .error i => .fault (.unwrittenElement .idx i)
    | .ok pens =>
      match resolvePens cfg s pens with
      | .error k => .fault (.inkNotInTable k)
      | .ok cs => complete (s.resolved cs)

/-- RESOLVE (R193). -/
def execResolve (s : State) : Result := resolveCommand Config.params s

end Sys2Proof.Machine
end

