-- ==== Sys2Proof/Machine/Unpacker.lean ====
section
/-! DEFINITION. The pixel unpacker and the UNPACK instructions (42_pixel_unpacker R180 to R189, R195). -/

namespace Sys2Proof.Machine

/-- The pen of column `x` of row `y` in the bytes of a block of width `w` (R186): slot `x mod p` of the row's byte
`x div p`. Slots beyond the row are never looked at (R185). -/
def unpackedPen (m : Mode) (w : Nat) (bytes : List Byte) (y x : Nat) : Pen :=
  unpackByte m (bytes.getD (y * bytesPerRow m w + x / ppb m) 0) (x % ppb m)

/-- The pens UNPACK.m writes, row-major (R64, R186). -/
def unpackGrid (m : Mode) (w h : Nat) (bytes : List Byte) : List Pen :=
  (List.range (w * h)).map fun i => unpackedPen m w bytes (i / w) (i % w)

/-- The state UNPACK.m leaves when its block holds `bytes` (R186). -/
def State.unpacked (s : State) (m : Mode) (bytes : List Byte) : State :=
  let pens := unpackGrid m s.width.toNat (s.derivedHeight m) bytes
  (s.setMem { s.mem with idx := memWriteBlock s.mem.idx pens }).setHeight (BitVec.ofNat 16 (s.derivedHeight m))

/-- UNPACK.m, the common semantics of R186, its checks in the order of R245. -/
def unpackCommand (cfg : Params) (m : Mode) (s : State) : Result :=
  if s.len.toNat > cfg.capDat then raise .capacity s
  else if s.width = 0 then raise .malformed s
  else if s.len.toNat % bytesPerRow m s.width.toNat ≠ 0 then raise .malformed s
  else if s.derivedHeight m > 65535 ∨ s.width.toNat * s.derivedHeight m > cfg.capGrid then raise .capacity s
  else
    match memReadBlock s.mem.dat s.len.toNat with
    | .error i => .fault (.unwrittenElement .dat i)
    | .ok bytes => complete (s.unpacked m bytes)

/-- UNPACK.0 (R187). -/
def execUnpack0 (s : State) : Result := unpackCommand Config.params .m0 s

/-- UNPACK.1 (R188). -/
def execUnpack1 (s : State) : Result := unpackCommand Config.params .m1 s

/-- UNPACK.2 (R189). -/
def execUnpack2 (s : State) : Result := unpackCommand Config.params .m2 s

/-- UNPACK with M = 3 (R95 step 3, R97). -/
def execUnpack3 (s : State) : Result := raise .mode s

end Sys2Proof.Machine
end

