-- ==== Sys2Proof/Machine/Dispatch.lean ====
section
/-! DEFINITION. The meaning of each command: one arm per row of the opcode table. `exec` is the execution of 30_encoding
R95 steps 3 and 4; step 1, the test of FATAL, comes before the decode, in `issueCommand` (log 13). -/

namespace Sys2Proof.Machine

def exec (i : Instr) (s : State) : Host.Outcome State Fault Refusal :=
  match i with
  | .setw imm16 => Sys2Proof.Machine.execSetw imm16 s
  | .seth imm16 => Sys2Proof.Machine.execSeth imm16 s
  | .setlen imm24 => Sys2Proof.Machine.execSetlen imm24 s
  | .setti v idx => Sys2Proof.Machine.execSetti v idx s
  | .setbg v ink => Sys2Proof.Machine.execSetbg v ink s
  | .setink pen ink => Sys2Proof.Machine.execSetink pen ink s
  | .clrink => Sys2Proof.Machine.execClrink s
  | .match0 => Sys2Proof.Machine.execMatch0 s
  | .match1 => Sys2Proof.Machine.execMatch1 s
  | .match2 => Sys2Proof.Machine.execMatch2 s
  | .pack0 => Sys2Proof.Machine.execPack0 s
  | .pack1 => Sys2Proof.Machine.execPack1 s
  | .pack2 => Sys2Proof.Machine.execPack2 s
  | .unpack0 => Sys2Proof.Machine.execUnpack0 s
  | .unpack1 => Sys2Proof.Machine.execUnpack1 s
  | .unpack2 => Sys2Proof.Machine.execUnpack2 s
  | .resolve => Sys2Proof.Machine.execResolve s
  | .match3 => Sys2Proof.Machine.execMatch3 s
  | .pack3 => Sys2Proof.Machine.execPack3 s
  | .unpack3 => Sys2Proof.Machine.execUnpack3 s

end Sys2Proof.Machine
end

