-- ==== Sys2Proof/Machine/HostPort.lean ====
section
/-! DEFINITION. The ports of the engine (10_state R20, R26, 20_memory R62, R69, 30_encoding R95): what one action of the
host does. -/

namespace Sys2Proof.Machine

/-- An entry of BGINK or INKMAP as its register reads: V above the ink code (R34, R36). -/
def InkEntry.word (e : InkEntry) : Word := (BitVec.ofBool e.v ++ e.ink).setWidth 32

/-- TINK as it reads: V above IDX (R33). -/
def TransparentInk.word (t : TransparentInk) : Word := (BitVec.ofBool t.v ++ t.idx).setWidth 32

/-- The register read port (R26, R28): the register zero-extended, the reserved numbers 8 to 15 as 0, and none for a
number the port does not have. -/
def readRegister (s : State) (n : Nat) : Option Word :=
  match n with
  | 0 => some s.status
  | 1 => some (s.lastErr.setWidth 32)
  | 2 => some s.errCnt
  | 3 => some (s.width.setWidth 32)
  | 4 => some (s.height.setWidth 32)
  | 5 => some (s.len.setWidth 32)
  | 6 => some s.tink.word
  | 7 => some s.bgink.word
  | n => if n < 16 then some 0 else if n < 32 then some (s.inkEntry (BitVec.ofNat 4 (n - 16))).word else none

/-- The decode procedure of R95: ignored while FATAL = 1 (R250), E_ILLEGAL for a word that is not legal, otherwise the
instruction. -/
def issueCommand (w : Word) (s : State) : Result :=
  if s.fatal then .next s
  else
    match decode w with
    | .error _ => raise .illegal s
    | .ok i => exec i s

/-- A host write of one element (R62, R69); refused outside the space (93 U14). -/
def hostWrite (cfg : Params) (i : Nat) (e : Elem) (s : State) : Result :=
  if i < capacity cfg e.space then .next (s.setMem (memWriteElem s.mem i e))
  else .refused (.noSuchElement e.space i)

/-- A host read of one element (R62, R69); refused outside the space (93 U14), a fault where nothing has been written
since reset (R73, log 5). -/
def hostRead (cfg : Params) (sp : Space) (i : Nat) (s : State) : Result :=
  if i < capacity cfg sp then
    match memReadElem s.mem sp i with
    | some e => .next (s.reply (.elem e))
    | none => .fault (.unwrittenElement sp i)
  else .refused (.noSuchElement sp i)

/-- A host read of one register (R26); refused above 31 (93 U14). -/
def hostReadReg (n : Nat) (s : State) : Result :=
  match readRegister s n with
  | some v => .next (s.reply (.reg v))
  | none => .refused (.noSuchRegister n)

/-- What one action of the host does. Only a command looks at FATAL: register reads and buffer accesses still work
while it is set (R250). -/
def hostAct (a : HostAction) (s : State) : Result :=
  match a with
  | .command w => issueCommand w s
  | .write i e => hostWrite Config.params i e s
  | .read sp i => hostRead Config.params sp i s
  | .readReg n => hostReadReg n s
  | .reset => .next s.resetEngine

/-- The next action the host performs, in its order (R71); with none pending the engine waits (R246; log 9). -/
def nextAction (s : State) : Result :=
  match s.hostQueue with
  | [] => .next s
  | a :: rest => hostAct a (s.setHostQueue rest)

/-- `s` with a command word as the host's very next action. -/
def withCommand (s : State) (w : Word) : State := s.setHostQueue (.command w :: s.hostQueue)

end Sys2Proof.Machine
end

