-- ==== Sys2Proof/Machine/Step.lean ====
section
/-! DEFINITION. One step of the machine: the next action of the host, performed whole (20_memory R66, R71). The engine
has no program counter and fetches from no memory (10_state R24, R75): a command word comes from the command port. -/

namespace Sys2Proof.Machine

/-- One step. -/
def step (s : State) : Host.Outcome State Fault Refusal := nextAction s

/-- `s` with the command word `w` (`nbits` bits, the others zero) as the very next action on the command port; log 8
says how a program comes to run. -/
def State.withFetchWord (s : State) (nbits w : Nat) : State := withCommand s (BitVec.ofNat 32 (w % 2 ^ nbits))

end Sys2Proof.Machine
end

