-- ==== Sys2Proof/Machine/Assembler.lean ====
section
/-! DEFINITION. The assembler of 30_encoding R100 and the pseudo-instructions of R101: the host's way of writing commands
down. It is no part of the engine: `step` does not use it. Spacing is free between the parts of a line (log 17). -/

namespace Sys2Proof.Machine

/-- The words of R100's table and the expansions of R101, for a line whose operands are in range. -/
def asmWords : AsmLine → List Word
  | .setw n => [BitVec.ofNat 32 (0x10000000 + n)]
  | .seth n => [BitVec.ofNat 32 (0x20000000 + n)]
  | .setlen n => [BitVec.ofNat 32 (0x30000000 + n)]
  | .setti idx => [BitVec.ofNat 32 (0x40000010 + idx)]
  | .settiOff => [0x40000000]
  | .setbg ink => [BitVec.ofNat 32 (0x50000020 + ink)]
  | .setbgOff => [0x50000000]
  | .setink pen ink => [BitVec.ofNat 32 (0x60000000 + pen * 256 + ink)]
  | .clrink => [0x70000000]
  | .matchMode m => [BitVec.ofNat 32 (0x80000000 + m * 0x04000000)]
  | .packMode m => [BitVec.ofNat 32 (0x90000000 + m * 0x04000000)]
  | .unpackMode m => [BitVec.ofNat 32 (0xA0000000 + m * 0x04000000)]
  | .resolve => [0xB0000000]
  | .inkPair pen ink => [BitVec.ofNat 32 (0x60000000 + pen * 256 + ink)]
  | .encodeMode m => [BitVec.ofNat 32 (0x80000000 + m * 0x04000000), BitVec.ofNat 32 (0x90000000 + m * 0x04000000)]
  | .decodeMode m => [BitVec.ofNat 32 (0xA0000000 + m * 0x04000000), 0xB0000000]

/-- The assembler: it refuses any operand outside the ranges of R100. -/
def assemble (l : AsmLine) : Option (List Word) := if l.wellFormed then some (asmWords l) else none

/-- The token under construction, if it holds anything. -/
def closeToken (cur : List Char) : List (List Char) := if cur.isEmpty then [] else [cur.reverse]

/-- The tokens of a line in capitals, since mnemonics are case-insensitive: a comma is a token of its own, `;` starts a
comment. -/
def asmTokens : List Char → List Char → List (List Char)
  | [], cur => closeToken cur
  | c :: cs, cur =>
    if c = ';' then closeToken cur
    else if c = ' ' ∨ c = '\t' then closeToken cur ++ asmTokens cs []
    else if c = ',' then closeToken cur ++ [','] :: asmTokens cs []
    else asmTokens cs (c.toUpper :: cur)

/-- One digit of a number to base 10 or 16. -/
def digitValue (base : Nat) (c : Char) : Option Nat :=
  let d := if c.isDigit then c.toNat - 48 else if 'A' ≤ c ∧ c ≤ 'F' then c.toNat - 55 else base
  if d < base then some d else none

/-- The number the digits spell after `acc`. -/
def digitsValue (base : Nat) : List Char → Nat → Option Nat
  | [], acc => some acc
  | c :: cs, acc =>
    match digitValue base c with
    | some d => digitsValue base cs (acc * base + d)
    | none => none

/-- "numbers are decimal, or hexadecimal with a `0x` prefix" (R100). -/
def asmNumber : List Char → Option Nat
  | [] => none
  | '0' :: 'X' :: c :: cs => digitsValue 16 (c :: cs) 0
  | c :: cs => digitsValue 10 (c :: cs) 0

/-- The line of a mnemonic with a mode, `MATCH.m` and the like. -/
def asmModeLine (name : List Char) (m : Nat) : Option AsmLine :=
  if name = "MATCH".toList then some (.matchMode m)
  else if name = "PACK".toList then some (.packMode m)
  else if name = "UNPACK".toList then some (.unpackMode m)
  else if name = "ENCODE".toList then some (.encodeMode m)
  else if name = "DECODE".toList then some (.decodeMode m)
  else none

/-- A line of one token. -/
def asmPlainLine (name : List Char) : Option AsmLine :=
  if name = "CLRINK".toList then some .clrink
  else if name = "RESOLVE".toList then some .resolve
  else
    match asmNumber (name.dropWhile (· ≠ '.')).tail with
    | some m => asmModeLine (name.takeWhile (· ≠ '.')) m
    | none => none

/-- A line of a mnemonic and one operand. -/
def asmOperandLine (name operand : List Char) : Option AsmLine :=
  if name = "SETTI".toList ∧ operand = "OFF".toList then some .settiOff
  else if name = "SETBG".toList ∧ operand = "OFF".toList then some .setbgOff
  else
    match asmNumber operand with
    | none => none
    | some n =>
      if name = "SETW".toList then some (.setw n)
      else if name = "SETH".toList then some (.seth n)
      else if name = "SETLEN".toList then some (.setlen n)
      else if name = "SETTI".toList then some (.setti n)
      else if name = "SETBG".toList then some (.setbg n)
      else none

/-- A line of a mnemonic and the pair `pen, ink`. -/
def asmPairLine (name pen ink : List Char) : Option AsmLine :=
  match asmNumber pen, asmNumber ink with
  | some p, some k =>
    if name = "SETINK".toList then some (.setink p k)
    else if name = "INK".toList then some (.inkPair p k)
    else none
  | _, _ => none

/-- The words one text line stands for: none for a line the assembler refuses, no word for a blank or comment line. -/
def assembleText (line : List Char) : Option (List Word) :=
  match asmTokens line [] with
  | [] => some []
  | [name] => (asmPlainLine name).bind assemble
  | [name, operand] => (asmOperandLine name operand).bind assemble
  | [name, pen, [','], ink] => (asmPairLine name pen ink).bind assemble
  | _ => none

/-- `s` with the words of a program as the host's next commands, in order. -/
def State.withProgram (s : State) (ws : List Word) : State := s.setHostQueue (ws.map .command ++ s.hostQueue)

end Sys2Proof.Machine
end

