-- ==== Sys2Proof/Safety.lean ====
section
/-! DEFINITION. What claims use as a good state and a safe action: the invariants that every step keeps (20_memory R62,
10_state R31, R32, R34, R36, R40, 40 R125, 60 R249) and the duty of the host to let a command read only what has been
written (70 R290). -/

namespace Sys2Proof.Machine

/-- Every listed index of a buffer lies below its capacity (R60). -/
def Buffer.within {α : Type} (b : Buffer α) (cap : Nat) : Prop := ∀ c ∈ b, c.1 < cap

/-- Every element of the four buffers exists: index 0 to capacity minus 1 (R60, R62). -/
structure Memory.within (cfg : Params) (m : Memory) : Prop where
  pix : Buffer.within m.pix cfg.capGrid
  idx : Buffer.within m.idx cfg.capGrid
  dat : Buffer.within m.dat cfg.capDat
  rgb : Buffer.within m.rgb cfg.capGrid

/-- The buffers are in canonical form and inside their spaces. -/
def State.memoryGood (cfg : Params) (s : State) : Prop := s.mem.wf = true ∧ s.mem.within cfg

/-- "every INK field held in BGINK and INKMAP is a valid index of `HWCOL`" (R218). -/
def State.storedInksValid (s : State) : Prop :=
  s.bgink.ink.toNat < nhw ∧ ∀ q : Pen, (s.inkEntry q).ink.toNat < nhw

/-- W_PALETTE stands in the trace once if WARNED is set, and not at all otherwise (R125, R130 item 3). -/
def State.oneShot (s : State) : Prop := s.diag.count Warning.palette.code = if s.warned then 1 else 0

/-- ERRCNT is the number of error events of the run, saturating (R32). -/
def State.errorsCounted (s : State) : Prop := s.errCnt.toNat = min (s.diag.countP isErrorEvent) (2 ^ 32 - 1)

/-- FATAL is set exactly if the mode error stands in the trace, and LASTERR is E_MODE exactly while FATAL is set
(R31, R249, R250). -/
def State.fatalRecorded (s : State) : Prop :=
  (s.fatal = true ↔ ErrorKind.mode.event ∈ s.diag) ∧ (s.fatal = true ↔ s.lastErr = ErrorKind.mode.code)

/-- LASTERR holds only codes the engine writes, the trace only codes it emits (R241, R243, R244, 93 U8). -/
def State.codesKnown (s : State) : Prop :=
  (s.lastErr = 0 ∨ ∃ e : ErrorKind, s.lastErr = e.code) ∧
    ∀ c ∈ s.diag, (∃ e : ErrorKind, c = e.event) ∨ ∃ w : Warning, c = w.code

/-- The first `n` elements of a buffer have been written since reset. -/
def Written {α : Type} (b : Buffer α) (n : Nat) : Prop := ∀ i, i < n → ∃ v, memRead b i = some v

/-- The first `n` elements of a pen buffer are written and are pens of mode `m`. -/
def PensOfMode (m : Mode) (b : Buffer Pen) (n : Nat) : Prop :=
  ∀ i, i < n → ∃ p, memRead b i = some p ∧ p.toNat < ncol m

/-- The host has written, or an earlier command has, every element of the command's read range (R69, R290). -/
def State.inputWritten (i : Instr) (s : State) : Prop :=
  match i with
  | .match0 => Written s.mem.pix s.gridSize
  | .match1 => Written s.mem.pix s.gridSize
  | .match2 => Written s.mem.pix s.gridSize
  | .pack0 => Written s.mem.idx s.gridSize
  | .pack1 => Written s.mem.idx s.gridSize
  | .pack2 => Written s.mem.idx s.gridSize
  | .unpack0 => Written s.mem.dat s.len.toNat
  | .unpack1 => Written s.mem.dat s.len.toNat
  | .unpack2 => Written s.mem.dat s.len.toNat
  | .resolve => Written s.mem.idx s.gridSize
  | .setw _ => True
  | .seth _ => True
  | .setlen _ => True
  | .setti _ _ => True
  | .setbg _ _ => True
  | .setink _ _ => True
  | .clrink => True
  | .match3 => True
  | .pack3 => True
  | .unpack3 => True

/-- MATCH.m, PACK.m and UNPACK.m by their mode (R94). -/
def matchInstr : Mode → Instr
  | .m0 => .match0
  | .m1 => .match1
  | .m2 => .match2

def packInstr : Mode → Instr
  | .m0 => .pack0
  | .m1 => .pack1
  | .m2 => .pack2

def unpackInstr : Mode → Instr
  | .m0 => .unpack0
  | .m1 => .unpack1
  | .m2 => .unpack2

/-- Two states that differ at most in what an error records and a command reports: LASTERR, ERRCNT and DIAG (R248). -/
def State.sameButRecords (s t : State) : Prop :=
  t = { s with lastErr := t.lastErr, errCnt := t.errCnt, diag := t.diag }

/-- The second table of 41 R151: the (slot, pen bit) of each byte bit, from bit 7 down to bit 0. -/
def byteBitOrigin : Mode → List (Nat × Nat)
  | .m0 => [(0, 0), (1, 0), (0, 2), (1, 2), (0, 1), (1, 1), (0, 3), (1, 3)]
  | .m1 => [(0, 0), (1, 0), (2, 0), (3, 0), (0, 1), (1, 1), (2, 1), (3, 1)]
  | .m2 => [(0, 0), (1, 0), (2, 0), (3, 0), (4, 0), (5, 0), (6, 0), (7, 0)]

/-- An action the host may perform by R26, R62, R69 and R290. -/
def State.actionAllowed (cfg : Params) (a : HostAction) (s : State) : Prop :=
  match a with
  | .command w => ∀ i, decode w = .ok i → s.inputWritten i
  | .write i e => i < capacity cfg e.space
  | .read sp i => i < capacity cfg sp ∧ (memReadElem s.mem sp i).isSome = true
  | .readReg n => n < 32
  | .reset => True

end Sys2Proof.Machine
end

