-- ==== Sys2Proof/Certificates/Slice0/Obligations.lean ====
section
/-! DEFINITION. The statements for the provers. Those about `exec` are about the engine's own parameters,
`Config.params`, of which nothing is known but the ranges of 00_scope R8; those that take `cfg` hold for all parameters.
A statement about a command's execution has the premise `s.fatal = false`, since a command is executed only then
(30_encoding R95, 60_exceptions R250). -/

open Sys2Proof Sys2Proof.Machine

/-! ## Encoding and the command port -/

/-- Decode and encode agree, with every operand at every value (R92, R94, R96, R97). -/
def Obligations.DecodeOfEncodeIsInstruction : Prop :=
  ∀ i : Instr, decode (encode i) = .ok i

/-- Each legal word has one meaning: it is the word of the instruction it decodes to (R92, R94, R96). -/
def Obligations.EncodeOfDecodeIsWord : Prop :=
  ∀ (w : Word) (i : Instr), decode w = .ok i → encode i = w

/-- R96: the words the decoder accepts are the legal words of the table, and a word that is not legal raises E_ILLEGAL,
after which nothing but LASTERR, ERRCNT and DIAG has changed (and the host's action is used up). -/
def Obligations.IllegalWordsRaiseIllegal : Prop :=
  (∀ w : Word, legalWord w = true ↔ ∃ i, decode w = .ok i) ∧
  ∀ (s : State) (w : Word) (rest : List HostAction),
    s.fatal = false → s.hostQueue = .command w :: rest → legalWord w = false →
    step s = .next
      { s with
        hostQueue := rest
        lastErr := 4
        errCnt := countError s.errCnt
        diag := s.diag ++ [0x04] }

/-- Words written out from the encodings of R92 and R94, one or more a family. -/
def Obligations.WordsOfTheTableDecode : Prop :=
  decode 0x100000C8 = .ok (.setw 200) ∧ decode 0x2000FFFF = .ok (.seth 65535) ∧
  decode 0x30FFFFFF = .ok (.setlen 16777215) ∧ decode 0x40000013 = .ok (.setti true 3) ∧
  decode 0x5000002D = .ok (.setbg true 13) ∧ decode 0x6000021B = .ok (.setink 2 27) ∧
  decode 0x70000000 = .ok .clrink ∧ decode 0x88000000 = .ok .match2 ∧ decode 0x94000000 = .ok .pack1 ∧
  decode 0xA0000000 = .ok .unpack0 ∧ decode 0xB0000000 = .ok .resolve ∧ decode 0x8C000000 = .ok .match3

/-- R95 step 4: with FATAL clear, a step whose next action is a command that decodes to `i` is the execution of `i`, the
action used up. -/
def Obligations.StepRunsDecodedCommand : Prop :=
  ∀ (s : State) (w : Word) (rest : List HostAction) (i : Instr),
    s.fatal = false → s.hostQueue = .command w :: rest → decode w = .ok i →
    step s = exec i { s with hostQueue := rest }

/-- R250: while FATAL = 1 every command word is ignored, and register reads and host buffer accesses still work. -/
def Obligations.FatalIgnoresEveryCommand : Prop :=
  ∀ (s : State) (rest : List HostAction), s.fatal = true →
    (∀ w : Word, s.hostQueue = .command w :: rest → step s = .next { s with hostQueue := rest }) ∧
    (∀ (n : Nat) (v : Word), s.hostQueue = .readReg n :: rest → readRegister s n = some v →
      step s = .next { s with hostQueue := rest, replies := s.replies ++ [.reg v] }) ∧
    (∀ (sp : Space) (i : Nat) (e : Elem), s.hostQueue = .read sp i :: rest → i < capacity Config.params sp →
      memReadElem s.mem sp i = some e →
      step s = .next { s with hostQueue := rest, replies := s.replies ++ [.elem e] }) ∧
    (∀ (i : Nat) (e : Elem), s.hostQueue = .write i e :: rest → i < capacity Config.params e.space →
      step s = .next { s with hostQueue := rest, mem := memWriteElem s.mem i e })

/-- A step uses up exactly the host's next action: no command changes the order in which the host acts (R24, R71), so
the second command of a pseudo-instruction is issued whatever the first did (R101). The queue is the model's own field
(log 8). -/
def Obligations.StepUsesUpOneAction : Prop :=
  ∀ (s t : State) (a : HostAction) (rest : List HostAction),
    s.hostQueue = a :: rest → step s = .next t → t.hostQueue = rest

/-- With no action pending the engine waits (R246, "the engine waits for the next command"); that the waiting step
answers the same state is the model's choice (log 9). -/
def Obligations.EngineWaitsWithoutAction : Prop :=
  ∀ s : State, s.hostQueue = [] → step s = .next s

/-! ## Errors, FATAL and reset -/

/-- R246: what raising an error does, for every error kind, and that a command that raises one does nothing else. -/
def Obligations.RaisedErrorIsPrecise : Prop :=
  (∀ (e : ErrorKind) (s : State), ∃ n : BitVec 32, n.toNat = min (s.errCnt.toNat + 1) (2 ^ 32 - 1) ∧
    raise e s = .next
      { s with
        lastErr := e.code
        errCnt := n
        diag := s.diag ++ [e.event]
        fatal := if e = .mode then true else s.fatal }) ∧
  ∀ (i : Instr) (s t : State), exec i s = .next t → t.lastErr ≠ 0 →
    ∃ e : ErrorKind, t.lastErr = e.code ∧ raise e s = .next t

/-- M = 3 in MATCH, PACK and UNPACK raises the fatal E_MODE, whatever the operands and buffers hold (R95 step 3, R97,
R246, R249). -/
def Obligations.ModeThreeIsFatal : Prop :=
  ∀ (s : State) (i : Instr), s.fatal = false → (i = .match3 ∨ i = .pack3 ∨ i = .unpack3) →
    exec i s = .next
      { s with
        lastErr := 1
        errCnt := countError s.errCnt
        diag := s.diag ++ [0x01]
        fatal := true }

/-- The host's reset: every register and flag at the value of 10_state section 10, an empty trace (R280, R281), and no
element of any buffer with a known value (R38, R282; that none counts as written is log 6); the host's remaining actions
and its record stay (log 12). -/
def Obligations.ResetActionLeavesResetValues : Prop :=
  ∀ (s : State) (rest : List HostAction), s.hostQueue = .reset :: rest →
    ∃ t, step s = .next t ∧
      t.width = 0 ∧ t.height = 0 ∧ t.len = 0 ∧ t.fatal = false ∧ t.warned = false ∧ t.lastErr = 0 ∧ t.errCnt = 0 ∧
      t.tink = { v := false, idx := 0 } ∧ t.bgink = { v := false, ink := 0 } ∧
      (∀ q : Pen, t.inkEntry q = { v := false, ink := 0 }) ∧ t.diag = [] ∧
      (∀ sp i, memReadElem t.mem sp i = none) ∧ t.hostQueue = rest ∧ t.replies = s.replies

/-- Only reset clears FATAL and WARNED, lowers ERRCNT or removes an event, and no step adds more than one event (R27,
R32, R40, R245, R280). -/
def Obligations.OnlyResetClears : Prop :=
  ∀ s t : State, step s = .next t → s.hostQueue.head? ≠ some .reset →
    (s.fatal = true → t.fatal = true) ∧ (s.warned = true → t.warned = true) ∧ s.errCnt.toNat ≤ t.errCnt.toNat ∧
      ∃ l : List DiagCode, l.length ≤ 1 ∧ t.diag = s.diag ++ l

/-- What errors record never decides what a later command does: two states that differ only in LASTERR, ERRCNT and DIAG
give results that differ only there, with the same LASTERR, and stop alike (R248). -/
def Obligations.RecordsDoNotInfluenceCommands : Prop :=
  ∀ (i : Instr) (s s' : State), s.sameButRecords s' →
    (∀ t, exec i s = .next t → ∃ t', exec i s' = .next t' ∧ t.sameButRecords t' ∧ t'.lastErr = t.lastErr) ∧
    (∀ f, exec i s = .fault f → exec i s' = .fault f)

/-! ## Invariants that every step keeps -/

/-- The reset state has every invariant below. -/
def Obligations.ResetStateIsGood : Prop :=
  State.reset.memoryGood Config.params ∧ State.reset.storedInksValid ∧ State.reset.oneShot ∧
    State.reset.errorsCounted ∧ State.reset.fatalRecorded ∧ State.reset.codesKnown

/-- The buffers stay in canonical form and inside their spaces: no command or host access touches an index at or above
the capacity (R60, R62, R68). -/
def Obligations.StepKeepsMemoryGood : Prop :=
  ∀ s t : State, s.memoryGood Config.params → step s = .next t → t.memoryGood Config.params

/-- R218: the ink check is `k <= 26`; every ink held in BGINK and INKMAP is a valid index of HWCOL at reset and stays
one. -/
def Obligations.StepKeepsStoredInksValid : Prop :=
  (∀ k : InkCode, inkOk k = true ↔ k.toNat ≤ 26) ∧ State.reset.storedInksValid ∧
  ∀ s t : State, s.storedInksValid → step s = .next t → t.storedInksValid

/-- One warning for any number of out-of-palette pixels, in any number of MATCH commands and modes of a run (R125, R130
item 3). -/
def Obligations.StepKeepsOneShotWarning : Prop :=
  ∀ s t : State, s.oneShot → step s = .next t → t.oneShot

/-- ERRCNT is the number of errors raised in the run, saturating at 2^32 - 1; warnings add nothing (R32, R244). -/
def Obligations.StepKeepsErrorCount : Prop :=
  ∀ s t : State, s.errorsCounted → step s = .next t → t.errorsCounted

/-- FATAL is set exactly after an E_MODE of the run, and LASTERR is E_MODE exactly while it is set (R31, R249, R250). -/
def Obligations.StepKeepsFatalRecord : Prop :=
  ∀ s t : State, s.fatalRecorded → step s = .next t → t.fatalRecorded

/-- Reserved codes are never written to LASTERR and never emitted (R241, R243, R244). -/
def Obligations.StepKeepsCodesKnown : Prop :=
  ∀ s t : State, s.codesKnown → step s = .next t → t.codesKnown

/-- An action within the host's rights and duties (R26, R62, R69, R290) is performed: no such step faults or is
refused. -/
def Obligations.AllowedActionsAreCarriedOut : Prop :=
  ∀ (s : State) (a : HostAction) (rest : List HostAction), s.storedInksValid → s.hostQueue = a :: rest →
    s.actionAllowed Config.params a → ∃ t, step s = .next t

/-- Which command writes which state (R29; R22 to R25, R27, R33, R34, R36, R60): everything else is unchanged by any
command that answers a next state. -/
def Obligations.CommandsWriteOnlyTheirState : Prop :=
  ∀ (i : Instr) (s t : State), exec i s = .next t →
    (t.width ≠ s.width → ∃ n, i = .setw n) ∧
    (t.height ≠ s.height → (∃ n, i = .seth n) ∨ ∃ m, i = unpackInstr m) ∧
    (t.len ≠ s.len → (∃ n, i = .setlen n) ∨ ∃ m, i = packInstr m) ∧
    (t.tink ≠ s.tink → ∃ v idx, i = .setti v idx) ∧
    (t.bgink ≠ s.bgink → ∃ v ink, i = .setbg v ink) ∧
    (t.inkMap ≠ s.inkMap → (∃ pen ink, i = .setink pen ink) ∨ i = .clrink) ∧
    (t.warned ≠ s.warned → ∃ m, i = matchInstr m) ∧
    (t.fatal ≠ s.fatal → i = .match3 ∨ i = .pack3 ∨ i = .unpack3) ∧
    t.mem.pix = s.mem.pix ∧
    (t.mem.idx ≠ s.mem.idx → (∃ m, i = matchInstr m) ∨ ∃ m, i = unpackInstr m) ∧
    (t.mem.dat ≠ s.mem.dat → ∃ m, i = packInstr m) ∧
    (t.mem.rgb ≠ s.mem.rgb → i = .resolve) ∧ (t.lastErr = 0 → t.errCnt = s.errCnt) ∧
    t.hostQueue = s.hostQueue ∧ t.replies = s.replies

/-! ## The ports -/

/-- R26, R28, R30: the register read port. Each register reads as its fields, zero-extended, and a read changes nothing
of the engine; a number above 31 is refused (93 U14). -/
def Obligations.RegisterReadPort : Prop :=
  ∀ (s : State) (n : Nat) (rest : List HostAction), s.hostQueue = .readReg n :: rest →
    (n < 32 → ∃ v : Word,
      step s = .next { s with hostQueue := rest, replies := s.replies ++ [.reg v] } ∧
      (n = 0 → v.toNat = s.warned.toNat * 2 + s.fatal.toNat) ∧
      (n = 1 → v.toNat = s.lastErr.toNat) ∧ (n = 2 → v = s.errCnt) ∧
      (n = 3 → v.toNat = s.width.toNat) ∧ (n = 4 → v.toNat = s.height.toNat) ∧ (n = 5 → v.toNat = s.len.toNat) ∧
      (n = 6 → v.toNat = s.tink.v.toNat * 16 + s.tink.idx.toNat) ∧
      (n = 7 → v.toNat = s.bgink.v.toNat * 32 + s.bgink.ink.toNat) ∧
      (8 ≤ n → n < 16 → v = 0) ∧
      (∀ q : Pen, n = 16 + q.toNat → v.toNat = (s.inkEntry q).v.toNat * 32 + (s.inkEntry q).ink.toNat)) ∧
    (32 ≤ n → step s = .refused (.noSuchRegister n))

/-- R62, R69, R67: a host access inside a space moves one whole element and does nothing else; outside it is refused
(93 U14); a read of an element nothing has written since reset is a fault of the model (R73, log 5). -/
def Obligations.HostBufferAccess : Prop :=
  ∀ (s : State) (i : Nat) (rest : List HostAction),
    (∀ e : Elem, s.hostQueue = .write i e :: rest → i < capacity Config.params e.space →
      ∃ t, step s = .next t ∧ t = { s with hostQueue := rest, mem := t.mem } ∧
        ∀ sp j, memReadElem t.mem sp j =
          if sp = e.space ∧ j = i then some e else memReadElem s.mem sp j) ∧
    (∀ e : Elem, s.hostQueue = .write i e :: rest → capacity Config.params e.space ≤ i →
      step s = .refused (.noSuchElement e.space i)) ∧
    (∀ sp e, s.hostQueue = .read sp i :: rest → i < capacity Config.params sp → memReadElem s.mem sp i = some e →
      step s = .next { s with hostQueue := rest, replies := s.replies ++ [.elem e] }) ∧
    (∀ sp, s.hostQueue = .read sp i :: rest → i < capacity Config.params sp → memReadElem s.mem sp i = none →
      step s = .fault (.unwrittenElement sp i)) ∧
    (∀ sp, s.hostQueue = .read sp i :: rest → capacity Config.params sp ≤ i →
      step s = .refused (.noSuchElement sp i))

/-- R100, R101: the words of the assembler's lines, and the operands it refuses. -/
def Obligations.AssemblerWords : Prop :=
  (∀ n : BitVec 16, assemble (.setw n.toNat) = some [encode (.setw n)]) ∧
  (∀ n : BitVec 16, assemble (.seth n.toNat) = some [encode (.seth n)]) ∧
  (∀ n : BitVec 24, assemble (.setlen n.toNat) = some [encode (.setlen n)]) ∧
  (∀ idx : Pen, assemble (.setti idx.toNat) = some [encode (.setti true idx)]) ∧
  assemble .settiOff = some [encode (.setti false 0)] ∧
  (∀ ink : InkCode, assemble (.setbg ink.toNat) = some [encode (.setbg true ink)]) ∧
  assemble .setbgOff = some [encode (.setbg false 0)] ∧
  (∀ (pen : Pen) (ink : InkCode), assemble (.setink pen.toNat ink.toNat) = some [encode (.setink pen ink)] ∧
    assemble (.inkPair pen.toNat ink.toNat) = some [encode (.setink pen ink)]) ∧
  assemble .clrink = some [encode .clrink] ∧ assemble .resolve = some [encode .resolve] ∧
  assemble (.matchMode 3) = some [encode .match3] ∧ assemble (.packMode 3) = some [encode .pack3] ∧
  assemble (.unpackMode 3) = some [encode .unpack3] ∧
  (∀ (m : Mode) (k : Nat), k = (match m with | .m0 => 0 | .m1 => 1 | .m2 => 2) →
    assemble (.matchMode k) = some [encode (matchInstr m)] ∧ assemble (.packMode k) = some [encode (packInstr m)] ∧
    assemble (.unpackMode k) = some [encode (unpackInstr m)] ∧
    assemble (.encodeMode k) = some [encode (matchInstr m), encode (packInstr m)] ∧
    assemble (.decodeMode k) = some [encode (unpackInstr m), encode .resolve]) ∧
  (∀ n, 65535 < n → assemble (.setw n) = none ∧ assemble (.seth n) = none) ∧
  (∀ n, 16777215 < n → assemble (.setlen n) = none) ∧
  (∀ n, 15 < n → assemble (.setti n) = none ∧ ∀ k, assemble (.setink n k) = none ∧ assemble (.inkPair n k) = none) ∧
  (∀ n, 31 < n → assemble (.setbg n) = none ∧ ∀ p, assemble (.setink p n) = none ∧ assemble (.inkPair p n) = none) ∧
  ∀ m, 3 < m → assemble (.matchMode m) = none ∧ assemble (.packMode m) = none ∧ assemble (.unpackMode m) = none

/-! ## Configuration commands -/

/-- R211: SETW. -/
def Obligations.SetWidthCommand : Prop :=
  ∀ n : BitVec 16, decode (BitVec.ofNat 32 (0x10000000 + n.toNat)) = .ok (.setw n) ∧
    ∀ s : State, s.fatal = false → exec (.setw n) s = .next { s with width := n, lastErr := 0 }

/-- R212, R213: SETH and SETLEN. -/
def Obligations.SetHeightAndLengthCommands : Prop :=
  (∀ n : BitVec 16, decode (BitVec.ofNat 32 (0x20000000 + n.toNat)) = .ok (.seth n) ∧
    ∀ s : State, s.fatal = false → exec (.seth n) s = .next { s with height := n, lastErr := 0 }) ∧
  ∀ n : BitVec 24, decode (BitVec.ofNat 32 (0x30000000 + n.toNat)) = .ok (.setlen n) ∧
    ∀ s : State, s.fatal = false → exec (.setlen n) s = .next { s with len := n, lastErr := 0 }

/-- R214: SETTI stores V and IDX as given, also when V = 0. -/
def Obligations.SetTransparentInkCommand : Prop :=
  ∀ (v : Bool) (idx : Pen),
    decode (BitVec.ofNat 32 (0x40000000 + v.toNat * 16 + idx.toNat)) = .ok (.setti v idx) ∧
    ∀ s : State, s.fatal = false →
      exec (.setti v idx) s = .next { s with tink := { v := v, idx := idx }, lastErr := 0 }

/-- R215: SETBG, its three cases. -/
def Obligations.SetBackgroundInkCommand : Prop :=
  ∀ (v : Bool) (ink : InkCode),
    decode (BitVec.ofNat 32 (0x50000000 + v.toNat * 32 + ink.toNat)) = .ok (.setbg v ink) ∧
    ∀ s : State, s.fatal = false →
      (v = false → exec (.setbg v ink) s = .next { s with bgink := { v := false, ink := 0 }, lastErr := 0 }) ∧
      (v = true → ink.toNat < 27 →
        exec (.setbg v ink) s = .next { s with bgink := { v := true, ink := ink }, lastErr := 0 }) ∧
      (v = true → 27 ≤ ink.toNat → exec (.setbg v ink) s = .next { s with diag := s.diag ++ [0x12], lastErr := 0 })

/-- R216: SETINK: the ink test, then the duplicate test, with what `DUP_PEN_POLICY` says of a duplicate. -/
def Obligations.SetInkCommand : Prop :=
  ∀ (pen : Pen) (ink : InkCode),
    decode (BitVec.ofNat 32 (0x60000000 + pen.toNat * 256 + ink.toNat)) = .ok (.setink pen ink) ∧
    ∀ s : State, s.fatal = false →
      (27 ≤ ink.toNat → exec (.setink pen ink) s = .next { s with diag := s.diag ++ [0x12], lastErr := 0 }) ∧
      (ink.toNat < 27 → (s.inkEntry pen).v = true →
        exec (.setink pen ink) s = .next
          { s with
            diag := s.diag ++ [0x13]
            inkMap :=
              if Config.params.dupPolicy = .lastWins then
                s.inkMap.set pen.toNat { v := true, ink := ink } pen.isLt
              else s.inkMap
            lastErr := 0 }) ∧
      (ink.toNat < 27 → (s.inkEntry pen).v = false →
        exec (.setink pen ink) s = .next
          { s with inkMap := s.inkMap.set pen.toNat { v := true, ink := ink } pen.isLt, lastErr := 0 })

/-- R217: CLRINK clears V and INK of all sixteen entries and touches neither TINK nor BGINK. -/
def Obligations.ClearInkCommand : Prop :=
  decode 0x70000000 = .ok .clrink ∧
  ∀ s : State, s.fatal = false → ∃ t, exec .clrink s = .next t ∧
    (∀ q : Pen, t.inkEntry q = { v := false, ink := 0 }) ∧ t = { s with inkMap := t.inkMap, lastErr := 0 }

/-! ## The colour matcher -/

/-- R122: the squared distance is the exact integer sum of three squared differences, each square at most 65025 and the
sum at most 195075; it is 0 only between equal colours. -/
def Obligations.SquaredDistanceIsExact : Prop :=
  ∀ c q : Rgb,
    (dist2 c q : Int) = ((c.r.toNat : Int) - q.r.toNat) ^ 2 + ((c.g.toNat : Int) - q.g.toNat) ^ 2 +
      ((c.b.toNat : Int) - q.b.toNat) ^ 2 ∧
    ((c.r.toNat : Int) - q.r.toNat) ^ 2 ≤ 65025 ∧ ((c.g.toNat : Int) - q.g.toNat) ^ 2 ≤ 65025 ∧
    ((c.b.toNat : Int) - q.b.toNat) ^ 2 ≤ 65025 ∧ dist2 c q ≤ 195075 ∧ (dist2 c q = 0 ↔ c = q)

/-- R123: `nearest` answers an index of the palette, its distance is that entry's, no entry is nearer, and every entry
of lower index is strictly farther. -/
def Obligations.NearestIsLowestIndexMinimum : Prop :=
  ∀ (cfg : Params) (m : Mode) (c : Rgb),
    (nearest cfg m c).1 < ncol m ∧
    (∃ q, palRgb cfg m (nearest cfg m c).1 = some q ∧ dist2 c q = (nearest cfg m c).2) ∧
    ∀ (j : Nat) (q : Rgb), palRgb cfg m j = some q →
      (nearest cfg m c).2 ≤ dist2 c q ∧ (j < (nearest cfg m c).1 → (nearest cfg m c).2 < dist2 c q)

/-- R124: the match of one pixel: the override for alpha 0, otherwise the nearest entry by RGB alone. -/
def Obligations.MatchOfOnePixel : Prop :=
  ∀ (cfg : Params) (m : Mode) (tink : TransparentInk) (px : Pixel),
    (px.a = 0 ∧ tink.v = true → matchPx cfg m tink px = (tink.idx, false)) ∧
    (¬(px.a = 0 ∧ tink.v = true) →
      (matchPx cfg m tink px).1.toNat = (nearest cfg m { r := px.r, g := px.g, b := px.b }).1 ∧
      ((matchPx cfg m tink px).2 = true ↔ (nearest cfg m { r := px.r, g := px.g, b := px.b }).2 ≠ 0))

/-- R130 item 1: a colour equal to palette entry `k` matches `k`, silently, when the palettes are pairwise distinct
(R8). -/
def Obligations.ExactColourMatchesItsEntry : Prop :=
  ∀ (cfg : Params) (m : Mode) (tink : TransparentInk) (k : Nat) (px : Pixel),
    cfg.palettesDistinct = true → ¬(px.a = 0 ∧ tink.v = true) →
    palRgb cfg m k = some { r := px.r, g := px.g, b := px.b } →
    (matchPx cfg m tink px).1.toNat = k ∧ (matchPx cfg m tink px).2 = false

/-- R130 item 2: matching is idempotent, the re-matched colour taken as opaque. -/
def Obligations.MatchingIsIdempotent : Prop :=
  ∀ (cfg : Params) (m : Mode) (tink : TransparentInk) (px : Pixel) (c : Rgb),
    cfg.palettesDistinct = true → palRgb cfg m (matchPx cfg m tink px).1.toNat = some c →
    matchPx cfg m tink { r := c.r, g := c.g, b := c.b, a := 255 } = ((matchPx cfg m tink px).1, false)

/-- R126: MATCH.m: E_CAPACITY before anything is read or written when the grid does not fit; otherwise, its input
written, every pixel's pen goes to IDX, and W_PALETTE is emitted with WARNED exactly on the first out-of-palette event
of the run. All else is unchanged. -/
def Obligations.MatchCommandResult : Prop :=
  ∀ (m : Mode) (s : State), s.fatal = false →
    (Config.params.capGrid < s.gridSize →
      exec (matchInstr m) s = .next
        { s with lastErr := 5, errCnt := countError s.errCnt, diag := s.diag ++ [0x05] }) ∧
    (s.gridSize ≤ Config.params.capGrid → Written s.mem.pix s.gridSize →
      ∃ t, exec (matchInstr m) s = .next t ∧
        (∀ i px, i < s.gridSize → memRead s.mem.pix i = some px →
          memRead t.mem.idx i = some (matchPx Config.params m s.tink px).1) ∧
        (∀ i, s.gridSize ≤ i → memRead t.mem.idx i = memRead s.mem.idx i) ∧
        (((∃ i px, i < s.gridSize ∧ memRead s.mem.pix i = some px ∧
              (matchPx Config.params m s.tink px).2 = true) ∧ s.warned = false) →
          t.warned = true ∧ t.diag = s.diag ++ [0x10]) ∧
        (¬((∃ i px, i < s.gridSize ∧ memRead s.mem.pix i = some px ∧
              (matchPx Config.params m s.tink px).2 = true) ∧ s.warned = false) →
          t.warned = s.warned ∧ t.diag = s.diag) ∧
        t = { s with mem := { s.mem with idx := t.mem.idx }, warned := t.warned, diag := t.diag, lastErr := 0 })

/-! ## The packer and the unpacker -/

/-- R10: `ceil_div`, `div` and `mod`. -/
def Obligations.CeilDivIsLeastQuotient : Prop :=
  ∀ a b : Nat, 0 < b →
    a ≤ ceilDiv a b * b ∧ (∀ q, a ≤ q * b → ceilDiv a b ≤ q) ∧ ceilDiv a b = (a + b - 1) / b ∧
      a = a / b * b + a % b ∧ a % b < b

/-- R152 (c): in each mode the map from (slot, pen bit) to byte bit is a bijection onto the eight positions. The table's
values rest on general knowledge (R151; log 15). -/
def Obligations.InterleaveIsBijective : Prop :=
  ∀ m : Mode,
    (∀ k j, k < ppb m → j < bpp m → posBit m k j < 8) ∧
    (∀ k j k' j', k < ppb m → j < bpp m → k' < ppb m → j' < bpp m → posBit m k j = posBit m k' j' →
      k = k' ∧ j = j') ∧
    ∀ p, p < 8 → ∃ k j, k < ppb m ∧ j < bpp m ∧ posBit m k j = p

/-- R153: each byte bit of a packed chunk is the pen bit that the second table of R151 names (log 15). -/
def Obligations.PackedByteBits : Prop :=
  ∀ (m : Mode) (ch : Nat → Pen) (i k j : Nat), i < 8 → (byteBitOrigin m)[i]? = some (k, j) →
    (packByte m ch).getLsbD (7 - i) = (ch k).getLsbD j

/-- R181: the closed forms of `unpack_byte` (log 15). -/
def Obligations.UnpackedPenBits : Prop :=
  ∀ (b : Byte) (k j : Nat),
    (k < 8 → (unpackByte .m2 b k).getLsbD j = (decide (j = 0) && b.getLsbD (7 - k))) ∧
    (k < 4 → (unpackByte .m1 b k).getLsbD j =
      ((decide (j = 0) && b.getLsbD (7 - k)) || (decide (j = 1) && b.getLsbD (3 - k)))) ∧
    (k < 2 → (unpackByte .m0 b k).getLsbD j =
      ((decide (j = 0) && b.getLsbD (7 - k)) || (decide (j = 1) && b.getLsbD (3 - k)) ||
        (decide (j = 2) && b.getLsbD (5 - k)) || (decide (j = 3) && b.getLsbD (1 - k))))

/-- R181: the byte functions are inverse to each other in each mode, and every unpacked pen is a pen of the mode. -/
def Obligations.PackAndUnpackByteAreInverse : Prop :=
  ∀ m : Mode,
    (∀ b : Byte, packByte m (unpackByte m b) = b) ∧
    (∀ (b : Byte) (k : Nat), k < ppb m → (unpackByte m b k).toNat < ncol m) ∧
    ∀ ch : Nat → Pen, (∀ k, k < ppb m → (ch k).toNat < ncol m) →
      ∀ k, k < ppb m → unpackByte m (packByte m ch) k = ch k

/-- R156, R160: PACK.m: E_CAPACITY first; then, its input written, E_INDEX if a pen of the grid is no pen of the mode;
otherwise every chunk's byte goes to DAT, pad slots as pen 0 (R154), the length to LEN. All else is unchanged. -/
def Obligations.PackCommandResult : Prop :=
  ∀ (m : Mode) (s : State), s.fatal = false →
    (Config.params.capGrid < s.gridSize ∨ Config.params.capDat < s.packedSize m →
      exec (packInstr m) s = .next
        { s with lastErr := 5, errCnt := countError s.errCnt, diag := s.diag ++ [0x05] }) ∧
    (s.gridSize ≤ Config.params.capGrid → s.packedSize m ≤ Config.params.capDat → Written s.mem.idx s.gridSize →
      (∃ i p, i < s.gridSize ∧ memRead s.mem.idx i = some p ∧ ncol m ≤ p.toNat) →
      exec (packInstr m) s = .next
        { s with lastErr := 6, errCnt := countError s.errCnt, diag := s.diag ++ [0x06] }) ∧
    (s.gridSize ≤ Config.params.capGrid → s.packedSize m ≤ Config.params.capDat →
      PensOfMode m s.mem.idx s.gridSize →
      ∃ t, exec (packInstr m) s = .next t ∧
        (∀ (y c : Nat) (ch : Nat → Pen), y < s.height.toNat → c < bytesPerRow m s.width.toNat →
          (∀ k, k < ppb m → c * ppb m + k < s.width.toNat →
            memRead s.mem.idx (y * s.width.toNat + c * ppb m + k) = some (ch k)) →
          (∀ k, k < ppb m → s.width.toNat ≤ c * ppb m + k → ch k = 0) →
          memRead t.mem.dat (y * bytesPerRow m s.width.toNat + c) = some (packByte m ch)) ∧
        (∀ j, s.packedSize m ≤ j → memRead t.mem.dat j = memRead s.mem.dat j) ∧
        t.len.toNat = bytesPerRow m s.width.toNat * s.height.toNat ∧
        t = { s with mem := { s.mem with dat := t.mem.dat }, len := t.len, lastErr := 0 })

/-- R157: PACK.0 raises no E_INDEX: every 4-bit element is a pen of mode 0. -/
def Obligations.PackModeZeroNeverRaisesIndex : Prop :=
  ∀ s t : State, exec .pack0 s = .next t → t.lastErr ≠ 6

/-- R186, R245: the errors of UNPACK.m in their order, for any parameters, and that the three instructions are this
operation at the engine's own. -/
def Obligations.UnpackCommandErrors : Prop :=
  (∀ (m : Mode) (s : State), exec (unpackInstr m) s = unpackCommand Config.params m s) ∧
  ∀ (cfg : Params) (m : Mode) (s : State), s.fatal = false →
    (cfg.capDat < s.len.toNat →
      unpackCommand cfg m s = .next
        { s with lastErr := 5, errCnt := countError s.errCnt, diag := s.diag ++ [0x05] }) ∧
    (s.len.toNat ≤ cfg.capDat → s.width = 0 →
      unpackCommand cfg m s = .next
        { s with lastErr := 2, errCnt := countError s.errCnt, diag := s.diag ++ [0x02] }) ∧
    (s.len.toNat ≤ cfg.capDat → s.width ≠ 0 → s.len.toNat % bytesPerRow m s.width.toNat ≠ 0 →
      unpackCommand cfg m s = .next
        { s with lastErr := 2, errCnt := countError s.errCnt, diag := s.diag ++ [0x02] }) ∧
    (s.len.toNat ≤ cfg.capDat → s.width ≠ 0 → s.len.toNat % bytesPerRow m s.width.toNat = 0 →
      65535 < s.derivedHeight m ∨ cfg.capGrid < s.width.toNat * s.derivedHeight m →
      unpackCommand cfg m s = .next
        { s with lastErr := 5, errCnt := countError s.errCnt, diag := s.diag ++ [0x05] })

/-- R186: UNPACK.m completes when nothing raises and its input is written: every slot inside the width goes to IDX, pad
slots are dropped without being looked at (R185), the derived height goes to HEIGHT. All else is unchanged. -/
def Obligations.UnpackCommandResult : Prop :=
  ∀ (m : Mode) (s : State), s.fatal = false → s.len.toNat ≤ Config.params.capDat → s.width ≠ 0 →
    s.len.toNat % bytesPerRow m s.width.toNat = 0 → s.derivedHeight m ≤ 65535 →
    s.width.toNat * s.derivedHeight m ≤ Config.params.capGrid → Written s.mem.dat s.len.toNat →
    ∃ t, exec (unpackInstr m) s = .next t ∧
      (∀ y x b, y < s.derivedHeight m → x < s.width.toNat →
        memRead s.mem.dat (y * bytesPerRow m s.width.toNat + x / ppb m) = some b →
        memRead t.mem.idx (y * s.width.toNat + x) = some (unpackByte m b (x % ppb m))) ∧
      (∀ i, s.width.toNat * s.derivedHeight m ≤ i → memRead t.mem.idx i = memRead s.mem.idx i) ∧
      t.height.toNat = s.len.toNat / bytesPerRow m s.width.toNat ∧
      t = { s with mem := { s.mem with idx := t.mem.idx }, height := t.height, lastErr := 0 }

/-- R194: PACK.m followed by UNPACK.m leaves the grid and its height as they were, for every width of at least 1,
padding included. -/
def Obligations.PackThenUnpackRestoresGrid : Prop :=
  ∀ (m : Mode) (s : State), s.fatal = false → s.width ≠ 0 → s.gridSize ≤ Config.params.capGrid →
    s.packedSize m ≤ Config.params.capDat → PensOfMode m s.mem.idx s.gridSize →
    ∃ t u, exec (packInstr m) s = .next t ∧ exec (unpackInstr m) t = .next u ∧
      u.height = s.height ∧ u.width = s.width ∧ u.lastErr = 0 ∧
      ∀ i, memRead u.mem.idx i = memRead s.mem.idx i

/-- R194, the other direction, for any parameters: for a width of whole chunks, UNPACK.m followed by PACK.m leaves the
data block and its length as they were. The instructions are these operations at the engine's own parameters. -/
def Obligations.UnpackThenPackRestoresData : Prop :=
  (∀ (m : Mode) (s : State), exec (unpackInstr m) s = unpackCommand Config.params m s ∧
    exec (packInstr m) s = packCommand Config.params m s) ∧
  ∀ (cfg : Params) (m : Mode) (s : State), s.fatal = false → s.width ≠ 0 → s.width.toNat % ppb m = 0 →
    s.len.toNat ≤ cfg.capDat → s.len.toNat % bytesPerRow m s.width.toNat = 0 →
    s.derivedHeight m ≤ 65535 → s.width.toNat * s.derivedHeight m ≤ cfg.capGrid →
    Written s.mem.dat s.len.toNat →
    ∃ t u, unpackCommand cfg m s = .next t ∧ packCommand cfg m t = .next u ∧
      u.len = s.len ∧ u.lastErr = 0 ∧ ∀ j, memRead u.mem.dat j = memRead s.mem.dat j

/-- R212, R213, R287: UNPACK.m does not read HEIGHT and PACK.m does not read LEN: a different value there changes
nothing but what the command would leave of it. -/
def Obligations.OutputRegistersAreNotInputs : Prop :=
  (∀ (m : Mode) (s t : State) (v : BitVec 16), exec (unpackInstr m) s = .next t →
    exec (unpackInstr m) { s with height := v } = .next (if t.lastErr = 0 then t else { t with height := v })) ∧
  ∀ (m : Mode) (s t : State) (v : BitVec 24), exec (packInstr m) s = .next t →
    exec (packInstr m) { s with len := v } = .next (if t.lastErr = 0 then t else { t with len := v })

/-! ## RESOLVE -/

/-- R191, R192: the colour of a pen, in a state whose stored inks are valid (R34, R36, R218). -/
def Obligations.ResolveOfOnePen : Prop :=
  ∀ (cfg : Params) (s : State) (q : Pen), s.storedInksValid →
    ((s.inkEntry q).v = true →
      ∃ c, cfg.hwcol[(s.inkEntry q).ink.toNat]? = some c ∧ resolvePen cfg s q = .ok (c, false)) ∧
    ((s.inkEntry q).v = false → s.bgink.v = true →
      ∃ c, cfg.hwcol[s.bgink.ink.toNat]? = some c ∧ resolvePen cfg s q = .ok (c, false)) ∧
    ((s.inkEntry q).v = false → s.bgink.v = false →
      resolvePen cfg s q = .ok ({ r := 255, g := 0, b := 255 }, true))

/-- R193: RESOLVE: E_CAPACITY when the grid does not fit; otherwise, its input written and the stored inks valid, every
pen's colour goes to RGB, and W_MISSINK is emitted exactly if no override is supplied and no pen is mapped or a
placeholder was rendered. All else is unchanged. -/
def Obligations.ResolveCommandResult : Prop :=
  decode 0xB0000000 = .ok .resolve ∧
  ∀ s : State, s.fatal = false →
    (Config.params.capGrid < s.gridSize →
      exec .resolve s = .next
        { s with lastErr := 5, errCnt := countError s.errCnt, diag := s.diag ++ [0x05] }) ∧
    (s.gridSize ≤ Config.params.capGrid → Written s.mem.idx s.gridSize → s.storedInksValid →
      ∃ t, exec .resolve s = .next t ∧
        (∀ i q, i < s.gridSize → memRead s.mem.idx i = some q →
          ∃ c ph, resolvePen Config.params s q = .ok (c, ph) ∧ memRead t.mem.rgb i = some c) ∧
        (∀ i, s.gridSize ≤ i → memRead t.mem.rgb i = memRead s.mem.rgb i) ∧
        (s.bgink.v = false ∧
            ((∀ q, (s.inkEntry q).v = false) ∨
              ∃ i q, i < s.gridSize ∧ memRead s.mem.idx i = some q ∧ (s.inkEntry q).v = false) →
          t.diag = s.diag ++ [0x11]) ∧
        (¬(s.bgink.v = false ∧
            ((∀ q, (s.inkEntry q).v = false) ∨
              ∃ i q, i < s.gridSize ∧ memRead s.mem.idx i = some q ∧ (s.inkEntry q).v = false)) →
          t.diag = s.diag) ∧
        t = { s with mem := { s.mem with rgb := t.mem.rgb }, diag := t.diag, lastErr := 0 })

/-! ## Reads of unwritten elements -/

/-- R73: a command that reads an element nothing has written since reset is a fault of the model, at the first such
element. -/
def Obligations.UnwrittenReadsFault : Prop :=
  ∀ (m : Mode) (s : State) (i : Nat), s.fatal = false →
    (i < s.gridSize → s.gridSize ≤ Config.params.capGrid → Written s.mem.pix i → memRead s.mem.pix i = none →
      exec (matchInstr m) s = .fault (.unwrittenElement .pix i)) ∧
    (i < s.gridSize → s.gridSize ≤ Config.params.capGrid → s.packedSize m ≤ Config.params.capDat →
      PensOfMode m s.mem.idx i → memRead s.mem.idx i = none →
      exec (packInstr m) s = .fault (.unwrittenElement .idx i)) ∧
    (i < s.len.toNat → s.len.toNat ≤ Config.params.capDat → s.width ≠ 0 →
      s.len.toNat % bytesPerRow m s.width.toNat = 0 → s.derivedHeight m ≤ 65535 →
      s.width.toNat * s.derivedHeight m ≤ Config.params.capGrid → Written s.mem.dat i → memRead s.mem.dat i = none →
      exec (unpackInstr m) s = .fault (.unwrittenElement .dat i)) ∧
    (i < s.gridSize → s.gridSize ≤ Config.params.capGrid → Written s.mem.idx i → memRead s.mem.idx i = none →
      exec .resolve s = .fault (.unwrittenElement .idx i))
end

