-- ==== Sys2Proof/Laws/Memory.lean ====
section
/-! SUPPORT. The laws of the buffers: a read after a write, the canonical form, the bounds, and what reading and writing
a block say element by element (20_memory R62, R68). -/

namespace Sys2Proof.Machine

variable {α : Type}

/-- An element written reads back (R62). -/
@[simp] theorem memRead_memWrite_same (b : Buffer α) (i : Nat) (v : α) : memRead (memWrite b i v) i = some v := by
  induction b with
  | nil => simp [memWrite, memRead]
  | cons c rest ih =>
    obtain ⟨k, w⟩ := c
    unfold memWrite
    split
    · simp [memRead]
    · split
      · simp [memRead]
      · rename_i h1 h2
        simp [memRead, ih, Ne.symm h2]

/-- A write leaves every other element alone (R62). -/
theorem memRead_memWrite_other (b : Buffer α) {i j : Nat} (v : α) (h : j ≠ i) :
    memRead (memWrite b i v) j = memRead b j := by
  induction b with
  | nil => simp [memWrite, memRead, Ne.symm h]
  | cons c rest ih =>
    obtain ⟨k, w⟩ := c
    unfold memWrite
    split
    · simp [memRead, Ne.symm h]
    · split
      · rename_i h1 h2
        subst h2
        simp [memRead, Ne.symm h]
      · simp only [memRead]
        split
        · rfl
        · exact ih

theorem memRead_memWrite (b : Buffer α) (i j : Nat) (v : α) :
    memRead (memWrite b i v) j = if j = i then some v else memRead b j := by
  split
  · next h => subst h; simp
  · next h => exact memRead_memWrite_other b v h

/-- The canonical form says that indices rise strictly over the whole list. -/
theorem wf_iff_pairwise (b : Buffer α) : Buffer.wf b = true ↔ b.Pairwise (fun x y => x.1 < y.1) := by
  induction b with
  | nil => simp [Buffer.wf]
  | cons a rest ih =>
    cases rest with
    | nil => simp [Buffer.wf]
    | cons c rest =>
      simp only [Buffer.wf, Bool.and_eq_true, decide_eq_true_eq, ih]
      constructor
      · rintro ⟨hac, hp⟩
        refine List.pairwise_cons.2 ⟨fun x hx => ?_, hp⟩
        rcases List.mem_cons.1 hx with rfl | hx
        · exact hac
        · exact lt_trans hac ((List.pairwise_cons.1 hp).1 x hx)
      · intro h
        exact ⟨(List.pairwise_cons.1 h).1 c (List.mem_cons_self ..), (List.pairwise_cons.1 h).2⟩

/-- A write lists no index but the old ones and its own. -/
theorem mem_memWrite {b : Buffer α} {i : Nat} {v : α} {c : Nat × α} (h : c ∈ memWrite b i v) :
    c = (i, v) ∨ c ∈ b := by
  induction b with
  | nil => simpa [memWrite] using h
  | cons d rest ih =>
    obtain ⟨k, w⟩ := d
    unfold memWrite at h
    split at h
    · simpa using h
    · split at h
      · rcases List.mem_cons.1 h with h | h
        · exact .inl h
        · exact .inr (List.mem_cons_of_mem _ h)
      · rcases List.mem_cons.1 h with h | h
        · exact .inr (h ▸ List.mem_cons_self ..)
        · exact (ih h).imp_right (List.mem_cons_of_mem _)

/-- A write keeps the canonical form. -/
theorem wf_memWrite {b : Buffer α} (i : Nat) (v : α) (h : Buffer.wf b = true) :
    Buffer.wf (memWrite b i v) = true := by
  rw [wf_iff_pairwise] at h ⊢
  induction b with
  | nil => simp [memWrite]
  | cons c rest ih =>
    obtain ⟨k, w⟩ := c
    obtain ⟨hk, hrest⟩ := List.pairwise_cons.1 h
    unfold memWrite
    split
    · next hik =>
      refine List.pairwise_cons.2 ⟨fun x hx => ?_, h⟩
      rcases List.mem_cons.1 hx with rfl | hx
      · exact hik
      · exact lt_trans hik (hk x hx)
    · split
      · next _ hik => subst hik; exact List.pairwise_cons.2 ⟨hk, hrest⟩
      · next h1 h2 =>
        refine List.pairwise_cons.2 ⟨fun x hx => ?_, ih hrest⟩
        rcases mem_memWrite hx with rfl | hx
        · show k < i; omega
        · exact hk x hx

/-- A write below the capacity keeps the bounds. -/
theorem within_memWrite {b : Buffer α} {i cap : Nat} (v : α) (h : Buffer.within b cap) (hi : i < cap) :
    Buffer.within (memWrite b i v) cap := by
  intro c hc
  rcases mem_memWrite hc with rfl | hc
  · exact hi
  · exact h c hc

/-- Block writes keep the canonical form. -/
theorem wf_memWriteFrom {b : Buffer α} (i : Nat) (vs : List α) (h : Buffer.wf b = true) :
    Buffer.wf (memWriteFrom b i vs) = true := by
  induction vs generalizing b i with
  | nil => exact h
  | cons v vs ih => exact ih _ (wf_memWrite i v h)

theorem wf_memWriteBlock {b : Buffer α} (vs : List α) (h : Buffer.wf b = true) :
    Buffer.wf (memWriteBlock b vs) = true := wf_memWriteFrom 0 vs h

/-- Block writes inside the space keep the bounds. -/
theorem within_memWriteFrom {b : Buffer α} {i cap : Nat} (vs : List α) (h : Buffer.within b cap)
    (hi : i + vs.length ≤ cap) : Buffer.within (memWriteFrom b i vs) cap := by
  induction vs generalizing b i with
  | nil => exact h
  | cons v vs ih =>
    simp only [List.length_cons] at hi
    exact ih (within_memWrite v h (by omega)) (by omega)

theorem within_memWriteBlock {b : Buffer α} {cap : Nat} (vs : List α) (h : Buffer.within b cap)
    (hi : vs.length ≤ cap) : Buffer.within (memWriteBlock b vs) cap :=
  within_memWriteFrom vs h (by omega)

/-- What a block write leaves at every index. -/
theorem memRead_memWriteFrom (b : Buffer α) (i : Nat) (vs : List α) (j : Nat) :
    memRead (memWriteFrom b i vs) j = if i ≤ j ∧ j < i + vs.length then vs[j - i]? else memRead b j := by
  induction vs generalizing b i with
  | nil =>
    have : ¬ (i ≤ j ∧ j < i + ([] : List α).length) := by simp
    rw [if_neg this]; rfl
  | cons v vs ih =>
    rw [memWriteFrom, ih, memRead_memWrite]
    simp only [List.length_cons]
    by_cases hj : j = i
    · subst hj
      simp
    · by_cases hlt : i + 1 ≤ j ∧ j < i + 1 + vs.length
      · rw [if_pos hlt, if_pos (by omega)]
        obtain ⟨d, rfl⟩ : ∃ d, j = i + 1 + d := ⟨j - (i + 1), by omega⟩
        rw [show i + 1 + d - (i + 1) = d by omega, show i + 1 + d - i = d + 1 by omega, List.getElem?_cons_succ]
      · rw [if_neg hlt, if_neg hj, if_neg (by omega)]

/-- What a command's output leaves at every index: its own elements, and the old ones from its length upward (R68). -/
theorem memRead_memWriteBlock (b : Buffer α) (vs : List α) (j : Nat) :
    memRead (memWriteBlock b vs) j = if j < vs.length then vs[j]? else memRead b j := by
  simp [memWriteBlock, memRead_memWriteFrom]

theorem memRead_memWriteBlock_lt (b : Buffer α) (vs : List α) {j : Nat} (h : j < vs.length) :
    memRead (memWriteBlock b vs) j = some vs[j] := by
  rw [memRead_memWriteBlock, if_pos h, List.getElem?_eq_getElem h]

theorem memRead_memWriteBlock_ge (b : Buffer α) (vs : List α) {j : Nat} (h : vs.length ≤ j) :
    memRead (memWriteBlock b vs) j = memRead b j := by
  rw [memRead_memWriteBlock, if_neg (by omega)]

/-- What reading a block answers: the elements one by one, all of them written. -/
theorem memReadFrom_ok_iff (b : Buffer α) (i n : Nat) (vs : List α) :
    memReadFrom b i n = .ok vs ↔ vs.length = n ∧ ∀ k, k < n → memRead b (i + k) = vs[k]? := by
  induction n generalizing i vs with
  | zero =>
    simp only [memReadFrom, Except.ok.injEq, Nat.not_lt_zero, false_implies, implies_true, and_true]
    exact ⟨fun h => h ▸ rfl, fun h => (List.length_eq_zero_iff.1 h).symm⟩
  | succ n ih =>
    simp only [memReadFrom]
    cases hr : memRead b i with
    | none =>
      simp only [reduceCtorEq, false_iff]
      rintro ⟨hl, hk⟩
      have := hk 0 (by omega)
      rw [Nat.add_zero, hr, List.getElem?_eq_getElem (by omega)] at this
      exact absurd this (by simp)
    | some v =>
      cases hrest : memReadFrom b (i + 1) n with
      | error k =>
        simp only [reduceCtorEq, false_iff]
        rintro ⟨hl, hk⟩
        cases vs with
        | nil => simp at hl
        | cons w ws =>
          have hws : memReadFrom b (i + 1) n = .ok ws := by
            refine (ih (i + 1) ws).2 ⟨by simpa using hl, fun k hkn => ?_⟩
            have := hk (k + 1) (by omega)
            rwa [List.getElem?_cons_succ, show i + (k + 1) = i + 1 + k by omega] at this
          rw [hws] at hrest
          exact absurd hrest (by simp)
      | ok ws =>
        obtain ⟨hl, hk⟩ := (ih (i + 1) ws).1 hrest
        simp only [Except.ok.injEq]
        constructor
        · rintro rfl
          refine ⟨by simp [hl], fun k hkn => ?_⟩
          cases k with
          | zero => simpa using hr
          | succ k =>
            rw [List.getElem?_cons_succ, show i + (k + 1) = i + 1 + k by omega]
            exact hk k (by omega)
        · rintro ⟨hvl, hvk⟩
          cases vs with
          | nil => simp at hvl
          | cons w us =>
            have h0 := hvk 0 (by omega)
            rw [Nat.add_zero, hr, List.getElem?_cons_zero, Option.some.injEq] at h0
            subst h0
            have hus : memReadFrom b (i + 1) n = .ok us := by
              refine (ih (i + 1) us).2 ⟨by simpa using hvl, fun k hkn => ?_⟩
              have := hvk (k + 1) (by omega)
              rwa [List.getElem?_cons_succ, show i + (k + 1) = i + 1 + k by omega] at this
            rw [hrest] at hus
            simpa using hus

theorem memReadBlock_ok_iff (b : Buffer α) (n : Nat) (vs : List α) :
    memReadBlock b n = .ok vs ↔ vs.length = n ∧ ∀ k, k < n → memRead b k = vs[k]? := by
  simpa [memReadBlock] using memReadFrom_ok_iff b 0 n vs

/-- Reading a block fails at its first unwritten element. -/
theorem memReadFrom_error (b : Buffer α) (i n k : Nat) (h : memReadFrom b i n = .error k) :
    i ≤ k ∧ k < i + n ∧ memRead b k = none ∧ ∀ j, i ≤ j → j < k → ∃ v, memRead b j = some v := by
  induction n generalizing i with
  | zero => simp [memReadFrom] at h
  | succ n ih =>
    simp only [memReadFrom] at h
    cases hr : memRead b i with
    | none =>
      simp only [hr, Except.error.injEq] at h
      subst h
      exact ⟨le_rfl, by omega, hr, fun j h1 h2 => by omega⟩
    | some v =>
      rw [hr] at h
      cases hrest : memReadFrom b (i + 1) n with
      | error k' =>
        simp only [hrest, Except.error.injEq] at h
        subst h
        obtain ⟨h1, h2, h3, h4⟩ := ih (i + 1) hrest
        refine ⟨by omega, by omega, h3, fun j hj hjk => ?_⟩
        by_cases hji : j = i
        · exact ⟨v, hji ▸ hr⟩
        · exact h4 j (by omega) hjk
      | ok vs => simp [hrest] at h

theorem memReadBlock_error {b : Buffer α} {n k : Nat} (h : memReadBlock b n = .error k) :
    k < n ∧ memRead b k = none ∧ ∀ j, j < k → ∃ v, memRead b j = some v := by
  obtain ⟨_, h2, h3, h4⟩ := memReadFrom_error b 0 n k h
  exact ⟨by omega, h3, fun j hj => h4 j (by omega) hj⟩

/-- A written block reads. -/
theorem memReadBlock_of_written {b : Buffer α} {n : Nat} (h : Written b n) : ∃ vs, memReadBlock b n = .ok vs := by
  cases hr : memReadBlock b n with
  | ok vs => exact ⟨vs, rfl⟩
  | error k =>
    obtain ⟨h1, h2, _⟩ := memReadBlock_error hr
    obtain ⟨v, hv⟩ := h k h1
    rw [h2] at hv
    exact absurd hv (by simp)

/-- A block that reads was written. -/
theorem written_of_memReadBlock {b : Buffer α} {n : Nat} {vs : List α} (h : memReadBlock b n = .ok vs) :
    Written b n := by
  obtain ⟨hl, hk⟩ := (memReadBlock_ok_iff b n vs).1 h
  intro i hi
  exact ⟨vs[i]'(by omega), by rw [hk i hi, List.getElem?_eq_getElem]⟩

/-- Writing one element of any space keeps the canonical form of all four. -/
theorem wf_memWriteElem {m : Memory} (i : Nat) (e : Elem) (h : m.wf = true) : (memWriteElem m i e).wf = true := by
  simp only [Memory.wf, Bool.and_eq_true] at h ⊢
  obtain ⟨⟨⟨hp, hi⟩, hd⟩, hr⟩ := h
  cases e with
  | pix p => exact ⟨⟨⟨wf_memWrite i p hp, hi⟩, hd⟩, hr⟩
  | idx p => exact ⟨⟨⟨hp, wf_memWrite i p hi⟩, hd⟩, hr⟩
  | dat b => exact ⟨⟨⟨hp, hi⟩, wf_memWrite i b hd⟩, hr⟩
  | rgb c => exact ⟨⟨⟨hp, hi⟩, hd⟩, wf_memWrite i c hr⟩

/-- Writing one element inside its space keeps the bounds of all four. -/
theorem within_memWriteElem {cfg : Params} {m : Memory} {i : Nat} (e : Elem) (h : m.within cfg)
    (hi : i < capacity cfg e.space) : (memWriteElem m i e).within cfg := by
  cases e with
  | pix p => exact { h with pix := within_memWrite p h.pix hi }
  | idx p => exact { h with idx := within_memWrite p h.idx hi }
  | dat b => exact { h with dat := within_memWrite b h.dat hi }
  | rgb c => exact { h with rgb := within_memWrite c h.rgb hi }

end Sys2Proof.Machine
end

