-- ==== Sys2Proof/Laws/State.lean ====
section
/-! SUPPORT. What each named update of the state does to each field: one lemma a field and update, so that no proof
unfolds a record update. -/

namespace Sys2Proof.Machine

variable (s : State)

@[simp] theorem State.setWidth_width (v : BitVec 16) : (s.setWidth v).width = v := rfl
@[simp] theorem State.setWidth_height (v : BitVec 16) : (s.setWidth v).height = s.height := rfl
@[simp] theorem State.setWidth_len (v : BitVec 16) : (s.setWidth v).len = s.len := rfl
@[simp] theorem State.setWidth_fatal (v : BitVec 16) : (s.setWidth v).fatal = s.fatal := rfl
@[simp] theorem State.setWidth_warned (v : BitVec 16) : (s.setWidth v).warned = s.warned := rfl
@[simp] theorem State.setWidth_lastErr (v : BitVec 16) : (s.setWidth v).lastErr = s.lastErr := rfl
@[simp] theorem State.setWidth_errCnt (v : BitVec 16) : (s.setWidth v).errCnt = s.errCnt := rfl
@[simp] theorem State.setWidth_tink (v : BitVec 16) : (s.setWidth v).tink = s.tink := rfl
@[simp] theorem State.setWidth_bgink (v : BitVec 16) : (s.setWidth v).bgink = s.bgink := rfl
@[simp] theorem State.setWidth_inkMap (v : BitVec 16) : (s.setWidth v).inkMap = s.inkMap := rfl
@[simp] theorem State.setWidth_mem (v : BitVec 16) : (s.setWidth v).mem = s.mem := rfl
@[simp] theorem State.setWidth_diag (v : BitVec 16) : (s.setWidth v).diag = s.diag := rfl
@[simp] theorem State.setWidth_hostQueue (v : BitVec 16) : (s.setWidth v).hostQueue = s.hostQueue := rfl
@[simp] theorem State.setWidth_replies (v : BitVec 16) : (s.setWidth v).replies = s.replies := rfl

@[simp] theorem State.setHeight_width (v : BitVec 16) : (s.setHeight v).width = s.width := rfl
@[simp] theorem State.setHeight_height (v : BitVec 16) : (s.setHeight v).height = v := rfl
@[simp] theorem State.setHeight_len (v : BitVec 16) : (s.setHeight v).len = s.len := rfl
@[simp] theorem State.setHeight_fatal (v : BitVec 16) : (s.setHeight v).fatal = s.fatal := rfl
@[simp] theorem State.setHeight_warned (v : BitVec 16) : (s.setHeight v).warned = s.warned := rfl
@[simp] theorem State.setHeight_lastErr (v : BitVec 16) : (s.setHeight v).lastErr = s.lastErr := rfl
@[simp] theorem State.setHeight_errCnt (v : BitVec 16) : (s.setHeight v).errCnt = s.errCnt := rfl
@[simp] theorem State.setHeight_tink (v : BitVec 16) : (s.setHeight v).tink = s.tink := rfl
@[simp] theorem State.setHeight_bgink (v : BitVec 16) : (s.setHeight v).bgink = s.bgink := rfl
@[simp] theorem State.setHeight_inkMap (v : BitVec 16) : (s.setHeight v).inkMap = s.inkMap := rfl
@[simp] theorem State.setHeight_mem (v : BitVec 16) : (s.setHeight v).mem = s.mem := rfl
@[simp] theorem State.setHeight_diag (v : BitVec 16) : (s.setHeight v).diag = s.diag := rfl
@[simp] theorem State.setHeight_hostQueue (v : BitVec 16) : (s.setHeight v).hostQueue = s.hostQueue := rfl
@[simp] theorem State.setHeight_replies (v : BitVec 16) : (s.setHeight v).replies = s.replies := rfl

@[simp] theorem State.setLen_width (v : BitVec 24) : (s.setLen v).width = s.width := rfl
@[simp] theorem State.setLen_height (v : BitVec 24) : (s.setLen v).height = s.height := rfl
@[simp] theorem State.setLen_len (v : BitVec 24) : (s.setLen v).len = v := rfl
@[simp] theorem State.setLen_fatal (v : BitVec 24) : (s.setLen v).fatal = s.fatal := rfl
@[simp] theorem State.setLen_warned (v : BitVec 24) : (s.setLen v).warned = s.warned := rfl
@[simp] theorem State.setLen_lastErr (v : BitVec 24) : (s.setLen v).lastErr = s.lastErr := rfl
@[simp] theorem State.setLen_errCnt (v : BitVec 24) : (s.setLen v).errCnt = s.errCnt := rfl
@[simp] theorem State.setLen_tink (v : BitVec 24) : (s.setLen v).tink = s.tink := rfl
@[simp] theorem State.setLen_bgink (v : BitVec 24) : (s.setLen v).bgink = s.bgink := rfl
@[simp] theorem State.setLen_inkMap (v : BitVec 24) : (s.setLen v).inkMap = s.inkMap := rfl
@[simp] theorem State.setLen_mem (v : BitVec 24) : (s.setLen v).mem = s.mem := rfl
@[simp] theorem State.setLen_diag (v : BitVec 24) : (s.setLen v).diag = s.diag := rfl
@[simp] theorem State.setLen_hostQueue (v : BitVec 24) : (s.setLen v).hostQueue = s.hostQueue := rfl
@[simp] theorem State.setLen_replies (v : BitVec 24) : (s.setLen v).replies = s.replies := rfl

@[simp] theorem State.setTink_width (v : TransparentInk) : (s.setTink v).width = s.width := rfl
@[simp] theorem State.setTink_height (v : TransparentInk) : (s.setTink v).height = s.height := rfl
@[simp] theorem State.setTink_len (v : TransparentInk) : (s.setTink v).len = s.len := rfl
@[simp] theorem State.setTink_fatal (v : TransparentInk) : (s.setTink v).fatal = s.fatal := rfl
@[simp] theorem State.setTink_warned (v : TransparentInk) : (s.setTink v).warned = s.warned := rfl
@[simp] theorem State.setTink_lastErr (v : TransparentInk) : (s.setTink v).lastErr = s.lastErr := rfl
@[simp] theorem State.setTink_errCnt (v : TransparentInk) : (s.setTink v).errCnt = s.errCnt := rfl
@[simp] theorem State.setTink_tink (v : TransparentInk) : (s.setTink v).tink = v := rfl
@[simp] theorem State.setTink_bgink (v : TransparentInk) : (s.setTink v).bgink = s.bgink := rfl
@[simp] theorem State.setTink_inkMap (v : TransparentInk) : (s.setTink v).inkMap = s.inkMap := rfl
@[simp] theorem State.setTink_mem (v : TransparentInk) : (s.setTink v).mem = s.mem := rfl
@[simp] theorem State.setTink_diag (v : TransparentInk) : (s.setTink v).diag = s.diag := rfl
@[simp] theorem State.setTink_hostQueue (v : TransparentInk) : (s.setTink v).hostQueue = s.hostQueue := rfl
@[simp] theorem State.setTink_replies (v : TransparentInk) : (s.setTink v).replies = s.replies := rfl

@[simp] theorem State.setBgink_width (v : InkEntry) : (s.setBgink v).width = s.width := rfl
@[simp] theorem State.setBgink_height (v : InkEntry) : (s.setBgink v).height = s.height := rfl
@[simp] theorem State.setBgink_len (v : InkEntry) : (s.setBgink v).len = s.len := rfl
@[simp] theorem State.setBgink_fatal (v : InkEntry) : (s.setBgink v).fatal = s.fatal := rfl
@[simp] theorem State.setBgink_warned (v : InkEntry) : (s.setBgink v).warned = s.warned := rfl
@[simp] theorem State.setBgink_lastErr (v : InkEntry) : (s.setBgink v).lastErr = s.lastErr := rfl
@[simp] theorem State.setBgink_errCnt (v : InkEntry) : (s.setBgink v).errCnt = s.errCnt := rfl
@[simp] theorem State.setBgink_tink (v : InkEntry) : (s.setBgink v).tink = s.tink := rfl
@[simp] theorem State.setBgink_bgink (v : InkEntry) : (s.setBgink v).bgink = v := rfl
@[simp] theorem State.setBgink_inkMap (v : InkEntry) : (s.setBgink v).inkMap = s.inkMap := rfl
@[simp] theorem State.setBgink_mem (v : InkEntry) : (s.setBgink v).mem = s.mem := rfl
@[simp] theorem State.setBgink_diag (v : InkEntry) : (s.setBgink v).diag = s.diag := rfl
@[simp] theorem State.setBgink_hostQueue (v : InkEntry) : (s.setBgink v).hostQueue = s.hostQueue := rfl
@[simp] theorem State.setBgink_replies (v : InkEntry) : (s.setBgink v).replies = s.replies := rfl

@[simp] theorem State.setInkMap_width (v : Vector InkEntry 16) : (s.setInkMap v).width = s.width := rfl
@[simp] theorem State.setInkMap_height (v : Vector InkEntry 16) : (s.setInkMap v).height = s.height := rfl
@[simp] theorem State.setInkMap_len (v : Vector InkEntry 16) : (s.setInkMap v).len = s.len := rfl
@[simp] theorem State.setInkMap_fatal (v : Vector InkEntry 16) : (s.setInkMap v).fatal = s.fatal := rfl
@[simp] theorem State.setInkMap_warned (v : Vector InkEntry 16) : (s.setInkMap v).warned = s.warned := rfl
@[simp] theorem State.setInkMap_lastErr (v : Vector InkEntry 16) : (s.setInkMap v).lastErr = s.lastErr := rfl
@[simp] theorem State.setInkMap_errCnt (v : Vector InkEntry 16) : (s.setInkMap v).errCnt = s.errCnt := rfl
@[simp] theorem State.setInkMap_tink (v : Vector InkEntry 16) : (s.setInkMap v).tink = s.tink := rfl
@[simp] theorem State.setInkMap_bgink (v : Vector InkEntry 16) : (s.setInkMap v).bgink = s.bgink := rfl
@[simp] theorem State.setInkMap_inkMap (v : Vector InkEntry 16) : (s.setInkMap v).inkMap = v := rfl
@[simp] theorem State.setInkMap_mem (v : Vector InkEntry 16) : (s.setInkMap v).mem = s.mem := rfl
@[simp] theorem State.setInkMap_diag (v : Vector InkEntry 16) : (s.setInkMap v).diag = s.diag := rfl
@[simp] theorem State.setInkMap_hostQueue (v : Vector InkEntry 16) : (s.setInkMap v).hostQueue = s.hostQueue := rfl
@[simp] theorem State.setInkMap_replies (v : Vector InkEntry 16) : (s.setInkMap v).replies = s.replies := rfl

@[simp] theorem State.setMem_width (m : Memory) : (s.setMem m).width = s.width := rfl
@[simp] theorem State.setMem_height (m : Memory) : (s.setMem m).height = s.height := rfl
@[simp] theorem State.setMem_len (m : Memory) : (s.setMem m).len = s.len := rfl
@[simp] theorem State.setMem_fatal (m : Memory) : (s.setMem m).fatal = s.fatal := rfl
@[simp] theorem State.setMem_warned (m : Memory) : (s.setMem m).warned = s.warned := rfl
@[simp] theorem State.setMem_lastErr (m : Memory) : (s.setMem m).lastErr = s.lastErr := rfl
@[simp] theorem State.setMem_errCnt (m : Memory) : (s.setMem m).errCnt = s.errCnt := rfl
@[simp] theorem State.setMem_tink (m : Memory) : (s.setMem m).tink = s.tink := rfl
@[simp] theorem State.setMem_bgink (m : Memory) : (s.setMem m).bgink = s.bgink := rfl
@[simp] theorem State.setMem_inkMap (m : Memory) : (s.setMem m).inkMap = s.inkMap := rfl
@[simp] theorem State.setMem_mem (m : Memory) : (s.setMem m).mem = m := rfl
@[simp] theorem State.setMem_diag (m : Memory) : (s.setMem m).diag = s.diag := rfl
@[simp] theorem State.setMem_hostQueue (m : Memory) : (s.setMem m).hostQueue = s.hostQueue := rfl
@[simp] theorem State.setMem_replies (m : Memory) : (s.setMem m).replies = s.replies := rfl

@[simp] theorem State.setLastErr_width (v : BitVec 4) : (s.setLastErr v).width = s.width := rfl
@[simp] theorem State.setLastErr_height (v : BitVec 4) : (s.setLastErr v).height = s.height := rfl
@[simp] theorem State.setLastErr_len (v : BitVec 4) : (s.setLastErr v).len = s.len := rfl
@[simp] theorem State.setLastErr_fatal (v : BitVec 4) : (s.setLastErr v).fatal = s.fatal := rfl
@[simp] theorem State.setLastErr_warned (v : BitVec 4) : (s.setLastErr v).warned = s.warned := rfl
@[simp] theorem State.setLastErr_lastErr (v : BitVec 4) : (s.setLastErr v).lastErr = v := rfl
@[simp] theorem State.setLastErr_errCnt (v : BitVec 4) : (s.setLastErr v).errCnt = s.errCnt := rfl
@[simp] theorem State.setLastErr_tink (v : BitVec 4) : (s.setLastErr v).tink = s.tink := rfl
@[simp] theorem State.setLastErr_bgink (v : BitVec 4) : (s.setLastErr v).bgink = s.bgink := rfl
@[simp] theorem State.setLastErr_inkMap (v : BitVec 4) : (s.setLastErr v).inkMap = s.inkMap := rfl
@[simp] theorem State.setLastErr_mem (v : BitVec 4) : (s.setLastErr v).mem = s.mem := rfl
@[simp] theorem State.setLastErr_diag (v : BitVec 4) : (s.setLastErr v).diag = s.diag := rfl
@[simp] theorem State.setLastErr_hostQueue (v : BitVec 4) : (s.setLastErr v).hostQueue = s.hostQueue := rfl
@[simp] theorem State.setLastErr_replies (v : BitVec 4) : (s.setLastErr v).replies = s.replies := rfl

@[simp] theorem State.emit_width (c : DiagCode) : (s.emit c).width = s.width := rfl
@[simp] theorem State.emit_height (c : DiagCode) : (s.emit c).height = s.height := rfl
@[simp] theorem State.emit_len (c : DiagCode) : (s.emit c).len = s.len := rfl
@[simp] theorem State.emit_fatal (c : DiagCode) : (s.emit c).fatal = s.fatal := rfl
@[simp] theorem State.emit_warned (c : DiagCode) : (s.emit c).warned = s.warned := rfl
@[simp] theorem State.emit_lastErr (c : DiagCode) : (s.emit c).lastErr = s.lastErr := rfl
@[simp] theorem State.emit_errCnt (c : DiagCode) : (s.emit c).errCnt = s.errCnt := rfl
@[simp] theorem State.emit_tink (c : DiagCode) : (s.emit c).tink = s.tink := rfl
@[simp] theorem State.emit_bgink (c : DiagCode) : (s.emit c).bgink = s.bgink := rfl
@[simp] theorem State.emit_inkMap (c : DiagCode) : (s.emit c).inkMap = s.inkMap := rfl
@[simp] theorem State.emit_mem (c : DiagCode) : (s.emit c).mem = s.mem := rfl
@[simp] theorem State.emit_diag (c : DiagCode) : (s.emit c).diag = s.diag ++ [c] := rfl
@[simp] theorem State.emit_hostQueue (c : DiagCode) : (s.emit c).hostQueue = s.hostQueue := rfl
@[simp] theorem State.emit_replies (c : DiagCode) : (s.emit c).replies = s.replies := rfl

@[simp] theorem State.reply_width (r : HostReply) : (s.reply r).width = s.width := rfl
@[simp] theorem State.reply_height (r : HostReply) : (s.reply r).height = s.height := rfl
@[simp] theorem State.reply_len (r : HostReply) : (s.reply r).len = s.len := rfl
@[simp] theorem State.reply_fatal (r : HostReply) : (s.reply r).fatal = s.fatal := rfl
@[simp] theorem State.reply_warned (r : HostReply) : (s.reply r).warned = s.warned := rfl
@[simp] theorem State.reply_lastErr (r : HostReply) : (s.reply r).lastErr = s.lastErr := rfl
@[simp] theorem State.reply_errCnt (r : HostReply) : (s.reply r).errCnt = s.errCnt := rfl
@[simp] theorem State.reply_tink (r : HostReply) : (s.reply r).tink = s.tink := rfl
@[simp] theorem State.reply_bgink (r : HostReply) : (s.reply r).bgink = s.bgink := rfl
@[simp] theorem State.reply_inkMap (r : HostReply) : (s.reply r).inkMap = s.inkMap := rfl
@[simp] theorem State.reply_mem (r : HostReply) : (s.reply r).mem = s.mem := rfl
@[simp] theorem State.reply_diag (r : HostReply) : (s.reply r).diag = s.diag := rfl
@[simp] theorem State.reply_hostQueue (r : HostReply) : (s.reply r).hostQueue = s.hostQueue := rfl
@[simp] theorem State.reply_replies (r : HostReply) : (s.reply r).replies = s.replies ++ [r] := rfl

@[simp] theorem State.setHostQueue_width (q : List HostAction) : (s.setHostQueue q).width = s.width := rfl
@[simp] theorem State.setHostQueue_height (q : List HostAction) : (s.setHostQueue q).height = s.height := rfl
@[simp] theorem State.setHostQueue_len (q : List HostAction) : (s.setHostQueue q).len = s.len := rfl
@[simp] theorem State.setHostQueue_fatal (q : List HostAction) : (s.setHostQueue q).fatal = s.fatal := rfl
@[simp] theorem State.setHostQueue_warned (q : List HostAction) : (s.setHostQueue q).warned = s.warned := rfl
@[simp] theorem State.setHostQueue_lastErr (q : List HostAction) : (s.setHostQueue q).lastErr = s.lastErr := rfl
@[simp] theorem State.setHostQueue_errCnt (q : List HostAction) : (s.setHostQueue q).errCnt = s.errCnt := rfl
@[simp] theorem State.setHostQueue_tink (q : List HostAction) : (s.setHostQueue q).tink = s.tink := rfl
@[simp] theorem State.setHostQueue_bgink (q : List HostAction) : (s.setHostQueue q).bgink = s.bgink := rfl
@[simp] theorem State.setHostQueue_inkMap (q : List HostAction) : (s.setHostQueue q).inkMap = s.inkMap := rfl
@[simp] theorem State.setHostQueue_mem (q : List HostAction) : (s.setHostQueue q).mem = s.mem := rfl
@[simp] theorem State.setHostQueue_diag (q : List HostAction) : (s.setHostQueue q).diag = s.diag := rfl
@[simp] theorem State.setHostQueue_hostQueue (q : List HostAction) : (s.setHostQueue q).hostQueue = q := rfl
@[simp] theorem State.setHostQueue_replies (q : List HostAction) : (s.setHostQueue q).replies = s.replies := rfl

@[simp] theorem State.setInkEntry_width (q : Pen) (e : InkEntry) : (s.setInkEntry q e).width = s.width := rfl
@[simp] theorem State.setInkEntry_height (q : Pen) (e : InkEntry) : (s.setInkEntry q e).height = s.height := rfl
@[simp] theorem State.setInkEntry_len (q : Pen) (e : InkEntry) : (s.setInkEntry q e).len = s.len := rfl
@[simp] theorem State.setInkEntry_fatal (q : Pen) (e : InkEntry) : (s.setInkEntry q e).fatal = s.fatal := rfl
@[simp] theorem State.setInkEntry_warned (q : Pen) (e : InkEntry) : (s.setInkEntry q e).warned = s.warned := rfl
@[simp] theorem State.setInkEntry_lastErr (q : Pen) (e : InkEntry) : (s.setInkEntry q e).lastErr = s.lastErr := rfl
@[simp] theorem State.setInkEntry_errCnt (q : Pen) (e : InkEntry) : (s.setInkEntry q e).errCnt = s.errCnt := rfl
@[simp] theorem State.setInkEntry_tink (q : Pen) (e : InkEntry) : (s.setInkEntry q e).tink = s.tink := rfl
@[simp] theorem State.setInkEntry_bgink (q : Pen) (e : InkEntry) : (s.setInkEntry q e).bgink = s.bgink := rfl
@[simp] theorem State.setInkEntry_inkMap (q : Pen) (e : InkEntry) : (s.setInkEntry q e).inkMap = s.inkMap.set q.toNat e q.isLt := rfl
@[simp] theorem State.setInkEntry_mem (q : Pen) (e : InkEntry) : (s.setInkEntry q e).mem = s.mem := rfl
@[simp] theorem State.setInkEntry_diag (q : Pen) (e : InkEntry) : (s.setInkEntry q e).diag = s.diag := rfl
@[simp] theorem State.setInkEntry_hostQueue (q : Pen) (e : InkEntry) : (s.setInkEntry q e).hostQueue = s.hostQueue := rfl
@[simp] theorem State.setInkEntry_replies (q : Pen) (e : InkEntry) : (s.setInkEntry q e).replies = s.replies := rfl

@[simp] theorem State.raised_width (e : ErrorKind) : (s.raised e).width = s.width := rfl
@[simp] theorem State.raised_height (e : ErrorKind) : (s.raised e).height = s.height := rfl
@[simp] theorem State.raised_len (e : ErrorKind) : (s.raised e).len = s.len := rfl
@[simp] theorem State.raised_fatal (e : ErrorKind) : (s.raised e).fatal = (s.fatal || e.isFatal) := rfl
@[simp] theorem State.raised_warned (e : ErrorKind) : (s.raised e).warned = s.warned := rfl
@[simp] theorem State.raised_lastErr (e : ErrorKind) : (s.raised e).lastErr = e.code := rfl
@[simp] theorem State.raised_errCnt (e : ErrorKind) : (s.raised e).errCnt = countError s.errCnt := rfl
@[simp] theorem State.raised_tink (e : ErrorKind) : (s.raised e).tink = s.tink := rfl
@[simp] theorem State.raised_bgink (e : ErrorKind) : (s.raised e).bgink = s.bgink := rfl
@[simp] theorem State.raised_inkMap (e : ErrorKind) : (s.raised e).inkMap = s.inkMap := rfl
@[simp] theorem State.raised_mem (e : ErrorKind) : (s.raised e).mem = s.mem := rfl
@[simp] theorem State.raised_diag (e : ErrorKind) : (s.raised e).diag = s.diag ++ [e.event] := rfl
@[simp] theorem State.raised_hostQueue (e : ErrorKind) : (s.raised e).hostQueue = s.hostQueue := rfl
@[simp] theorem State.raised_replies (e : ErrorKind) : (s.raised e).replies = s.replies := rfl

@[simp] theorem State.resetEngine_width : s.resetEngine.width = State.reset.width := rfl
@[simp] theorem State.resetEngine_height : s.resetEngine.height = State.reset.height := rfl
@[simp] theorem State.resetEngine_len : s.resetEngine.len = State.reset.len := rfl
@[simp] theorem State.resetEngine_fatal : s.resetEngine.fatal = State.reset.fatal := rfl
@[simp] theorem State.resetEngine_warned : s.resetEngine.warned = State.reset.warned := rfl
@[simp] theorem State.resetEngine_lastErr : s.resetEngine.lastErr = State.reset.lastErr := rfl
@[simp] theorem State.resetEngine_errCnt : s.resetEngine.errCnt = State.reset.errCnt := rfl
@[simp] theorem State.resetEngine_tink : s.resetEngine.tink = State.reset.tink := rfl
@[simp] theorem State.resetEngine_bgink : s.resetEngine.bgink = State.reset.bgink := rfl
@[simp] theorem State.resetEngine_inkMap : s.resetEngine.inkMap = State.reset.inkMap := rfl
@[simp] theorem State.resetEngine_mem : s.resetEngine.mem = State.reset.mem := rfl
@[simp] theorem State.resetEngine_diag : s.resetEngine.diag = State.reset.diag := rfl
@[simp] theorem State.resetEngine_hostQueue : s.resetEngine.hostQueue = s.hostQueue := rfl
@[simp] theorem State.resetEngine_replies : s.resetEngine.replies = s.replies := rfl

@[simp] theorem State.noteInexact_width : s.noteInexact.width = s.width := by
  unfold State.noteInexact; split <;> rfl
@[simp] theorem State.noteInexact_height : s.noteInexact.height = s.height := by
  unfold State.noteInexact; split <;> rfl
@[simp] theorem State.noteInexact_len : s.noteInexact.len = s.len := by
  unfold State.noteInexact; split <;> rfl
@[simp] theorem State.noteInexact_fatal : s.noteInexact.fatal = s.fatal := by
  unfold State.noteInexact; split <;> rfl
@[simp] theorem State.noteInexact_lastErr : s.noteInexact.lastErr = s.lastErr := by
  unfold State.noteInexact; split <;> rfl
@[simp] theorem State.noteInexact_errCnt : s.noteInexact.errCnt = s.errCnt := by
  unfold State.noteInexact; split <;> rfl
@[simp] theorem State.noteInexact_tink : s.noteInexact.tink = s.tink := by
  unfold State.noteInexact; split <;> rfl
@[simp] theorem State.noteInexact_bgink : s.noteInexact.bgink = s.bgink := by
  unfold State.noteInexact; split <;> rfl
@[simp] theorem State.noteInexact_inkMap : s.noteInexact.inkMap = s.inkMap := by
  unfold State.noteInexact; split <;> rfl
@[simp] theorem State.noteInexact_mem : s.noteInexact.mem = s.mem := by
  unfold State.noteInexact; split <;> rfl
@[simp] theorem State.noteInexact_hostQueue : s.noteInexact.hostQueue = s.hostQueue := by
  unfold State.noteInexact; split <;> rfl
@[simp] theorem State.noteInexact_replies : s.noteInexact.replies = s.replies := by
  unfold State.noteInexact; split <;> rfl

/-- After an out-of-palette event WARNED is set (R125). -/
@[simp] theorem State.noteInexact_warned : s.noteInexact.warned = true := by
  unfold State.noteInexact; split
  · assumption
  · rfl

/-- The warning is emitted only where WARNED was clear (R125). -/
@[simp] theorem State.noteInexact_diag :
    s.noteInexact.diag = if s.warned then s.diag else s.diag ++ [Warning.palette.code] := by
  unfold State.noteInexact; split <;> simp_all

/-- A written INKMAP entry reads back. -/
@[simp] theorem State.inkEntry_setInkEntry_same (q : Pen) (e : InkEntry) : (s.setInkEntry q e).inkEntry q = e := by
  simp [State.inkEntry]

/-- Writing one INKMAP entry leaves the others. -/
theorem State.inkEntry_setInkEntry_other (q r : Pen) (e : InkEntry) (h : r ≠ q) :
    (s.setInkEntry q e).inkEntry r = s.inkEntry r := by
  have hne : q.toNat ≠ r.toNat := fun hk => h (BitVec.eq_of_toNat_eq hk.symm)
  simp [State.inkEntry, Vector.getElem_set_ne _ _ hne]

end Sys2Proof.Machine
end

