-- ==== Sys2Proof/Laws/Commands.lean ====
section
/-! SUPPORT. What each shared command operation can do, said once: the cases of MATCH, PACK, UNPACK, RESOLVE, SETBG and
SETINK, and from them the one fact about every command, `exec_next_cases`. -/

namespace Sys2Proof.Machine

/-- Every capacity admits one element (R8). -/
theorem capGrid_pos (cfg : Params) : 1 ≤ cfg.capGrid := by simp [Params.capGrid]

theorem capDat_pos (cfg : Params) : 1 ≤ cfg.capDat := by simp [Params.capDat]

theorem capGrid_le (cfg : Params) : cfg.capGrid ≤ 2 ^ 24 := by
  have := cfg.capGridPred.isLt
  simp only [Params.capGrid]; omega

theorem capDat_lt (cfg : Params) : cfg.capDat < 2 ^ 24 := by
  have := cfg.capDatPred.isLt
  simp only [Params.capDat]; omega

/-- No error's code is 0 (R241). -/
theorem ErrorKind.code_ne_zero (e : ErrorKind) : e.code ≠ 0 := by cases e <;> decide

theorem ErrorKind.isErrorEvent_event (e : ErrorKind) : isErrorEvent e.event = true := by cases e <;> decide

theorem Warning.isErrorEvent_code (w : Warning) : isErrorEvent w.code = false := by cases w <;> decide

theorem ErrorKind.event_ne_code (e : ErrorKind) (w : Warning) : e.event ≠ w.code := by cases e <;> cases w <;> decide

@[simp] theorem packGrid_length (m : Mode) (w h : Nat) (ps : List Pen) :
    (packGrid m w h ps).length = bytesPerRow m w * h := by simp [packGrid]

@[simp] theorem unpackGrid_length (m : Mode) (w h : Nat) (bytes : List Byte) :
    (unpackGrid m w h bytes).length = w * h := by simp [unpackGrid]

/-- Byte `j` of a packed grid (R155). -/
theorem packGrid_getElem (m : Mode) (w h : Nat) (ps : List Pen) (j : Nat) (hj : j < (packGrid m w h ps).length) :
    (packGrid m w h ps)[j] = packByte m (penAt m w ps (j / bytesPerRow m w) (j % bytesPerRow m w)) := by
  simp [packGrid]

/-- Pen `i` of an unpacked grid (R186). -/
theorem unpackGrid_getElem (m : Mode) (w h : Nat) (bytes : List Byte) (i : Nat)
    (hi : i < (unpackGrid m w h bytes).length) :
    (unpackGrid m w h bytes)[i] = unpackedPen m w bytes (i / w) (i % w) := by
  simp [unpackGrid]

/-- What PACK's check says when it accepts: every pen, in order, is written and is a pen of the mode (R156). -/
theorem scanPensFrom_pens_iff (b : Buffer Pen) (bound i n : Nat) (ps : List Pen) :
    scanPensFrom b bound i n = .pens ps ↔
      ps.length = n ∧ ∀ k, k < n → ∃ p, memRead b (i + k) = some p ∧ p.toNat < bound ∧ ps[k]? = some p := by
  induction n generalizing i ps with
  | zero =>
    simp only [scanPensFrom, PenScan.pens.injEq, Nat.not_lt_zero, false_implies, implies_true, and_true]
    exact ⟨fun h => h ▸ rfl, fun h => (List.length_eq_zero_iff.1 h).symm⟩
  | succ n ih =>
    have tailFact : ∀ (w : Pen) (us : List Pen),
        (∀ k, k < n + 1 → ∃ p, memRead b (i + k) = some p ∧ p.toNat < bound ∧ (w :: us)[k]? = some p) →
        ∀ k, k < n → ∃ p, memRead b (i + 1 + k) = some p ∧ p.toNat < bound ∧ us[k]? = some p := by
      intro w us h k hk
      obtain ⟨p, h1, h2, h3⟩ := h (k + 1) (by omega)
      exact ⟨p, by rwa [show i + 1 + k = i + (k + 1) by omega], h2, by simpa using h3⟩
    simp only [scanPensFrom]
    cases hr : memRead b i with
    | none =>
      simp only [reduceCtorEq, false_iff]
      rintro ⟨-, hk⟩
      obtain ⟨p, hp, -⟩ := hk 0 (by omega)
      rw [Nat.add_zero, hr] at hp
      exact absurd hp (by simp)
    | some v =>
      dsimp only
      split
      · next hb =>
        simp only [reduceCtorEq, false_iff]
        rintro ⟨-, hk⟩
        obtain ⟨p, hp, hlt, -⟩ := hk 0 (by omega)
        rw [Nat.add_zero, hr, Option.some.injEq] at hp
        subst hp; omega
      · next hb =>
        split
        · next us hus =>
          obtain ⟨hl, hk⟩ := (ih (i + 1) us).1 hus
          simp only [PenScan.pens.injEq]
          constructor
          · rintro rfl
            refine ⟨by simp [hl], fun k hkn => ?_⟩
            cases k with
            | zero => exact ⟨v, hr, by omega, by simp⟩
            | succ k =>
              obtain ⟨p, h1, h2, h3⟩ := hk k (by omega)
              exact ⟨p, by rwa [show i + (k + 1) = i + 1 + k by omega], h2, by simpa using h3⟩
          · rintro ⟨hvl, hvk⟩
            cases ps with
            | nil => simp at hvl
            | cons w ws =>
              obtain ⟨p, h1, -, h3⟩ := hvk 0 (by omega)
              rw [Nat.add_zero, hr, Option.some.injEq] at h1
              simp only [List.getElem?_cons_zero, Option.some.injEq] at h3
              have hws := (ih (i + 1) ws).2 ⟨by simpa using hvl, tailFact w ws hvk⟩
              rw [hus, PenScan.pens.injEq] at hws
              rw [h1, ← h3, hws]
        · next hstop =>
          constructor
          · intro h; exact absurd h (hstop ps)
          · rintro ⟨hvl, hvk⟩
            cases ps with
            | nil => simp at hvl
            | cons w ws =>
              exact absurd ((ih (i + 1) ws).2 ⟨by simpa using hvl, tailFact w ws hvk⟩) (hstop ws)

theorem scanPens_pens_iff (b : Buffer Pen) (bound n : Nat) (ps : List Pen) :
    scanPens b bound n = .pens ps ↔
      ps.length = n ∧ ∀ k, k < n → ∃ p, memRead b k = some p ∧ p.toNat < bound ∧ ps[k]? = some p := by
  simpa [scanPens] using scanPensFrom_pens_iff b bound 0 n ps

/-- What PACK's check says when it raises: some pen of the grid is no pen of the mode and everything before it is
written and in range (R160). -/
theorem scanPensFrom_outOfRange {b : Buffer Pen} {bound i n : Nat} (h : scanPensFrom b bound i n = .outOfRange) :
    ∃ k p, k < n ∧ memRead b (i + k) = some p ∧ bound ≤ p.toNat ∧
      ∀ j, j < k → ∃ q, memRead b (i + j) = some q ∧ q.toNat < bound := by
  induction n generalizing i with
  | zero => simp [scanPensFrom] at h
  | succ n ih =>
    simp only [scanPensFrom] at h
    cases hr : memRead b i with
    | none => simp [hr] at h
    | some v =>
      simp only [hr] at h
      split at h
      · next hb => exact ⟨0, v, by omega, hr, hb, fun j hj => by omega⟩
      · next hb =>
        split at h
        · simp at h
        · obtain ⟨k, p, hk, hp, hbp, hprev⟩ := ih h
          refine ⟨k + 1, p, by omega, by rwa [show i + (k + 1) = i + 1 + k by omega], hbp, fun j hj => ?_⟩
          cases j with
          | zero => exact ⟨v, hr, by omega⟩
          | succ j =>
            obtain ⟨q, hq⟩ := hprev j (by omega)
            exact ⟨q, by rwa [show i + (j + 1) = i + 1 + j by omega]⟩

/-- What PACK's check says when it meets an element nothing has written: everything before it is written and in range. -/
theorem scanPensFrom_unwritten {b : Buffer Pen} {bound i n k : Nat} (h : scanPensFrom b bound i n = .unwritten k) :
    i ≤ k ∧ k < i + n ∧ memRead b k = none := by
  induction n generalizing i with
  | zero => simp [scanPensFrom] at h
  | succ n ih =>
    simp only [scanPensFrom] at h
    cases hr : memRead b i with
    | none =>
      simp only [hr, PenScan.unwritten.injEq] at h
      subst h
      exact ⟨le_rfl, by omega, hr⟩
    | some v =>
      simp only [hr] at h
      split at h
      · simp at h
      · split at h
        · simp at h
        · obtain ⟨h1, h2, h3⟩ := ih h
          exact ⟨by omega, by omega, h3⟩

/-- The cases of MATCH.m (R126). -/
theorem matchCommand_cases (cfg : Params) (m : Mode) (s : State) :
    (cfg.capGrid < s.gridSize ∧ matchCommand cfg m s = .next (s.raised .capacity)) ∨
    (s.gridSize ≤ cfg.capGrid ∧ ∃ i, memReadBlock s.mem.pix s.gridSize = .error i ∧
      matchCommand cfg m s = .fault (.unwrittenElement .pix i)) ∨
    (s.gridSize ≤ cfg.capGrid ∧ ∃ pxs, memReadBlock s.mem.pix s.gridSize = .ok pxs ∧
      matchCommand cfg m s = .next ((s.matched cfg m pxs).setLastErr 0)) := by
  unfold matchCommand
  split
  · next h => exact .inl ⟨h, rfl⟩
  · next h =>
    split
    · next i hi => exact .inr (.inl ⟨by omega, i, hi, rfl⟩)
    · next pxs hp => exact .inr (.inr ⟨by omega, pxs, hp, rfl⟩)

/-- The cases of PACK.m (R156). -/
theorem packCommand_cases (cfg : Params) (m : Mode) (s : State) :
    ((cfg.capGrid < s.gridSize ∨ cfg.capDat < s.packedSize m) ∧
      packCommand cfg m s = .next (s.raised .capacity)) ∨
    (s.gridSize ≤ cfg.capGrid ∧ s.packedSize m ≤ cfg.capDat ∧
      ((∃ i, scanPens s.mem.idx (ncol m) s.gridSize = .unwritten i ∧
          packCommand cfg m s = .fault (.unwrittenElement .idx i)) ∨
        (scanPens s.mem.idx (ncol m) s.gridSize = .outOfRange ∧
          packCommand cfg m s = .next (s.raised .index)) ∨
        ∃ ps, scanPens s.mem.idx (ncol m) s.gridSize = .pens ps ∧
          packCommand cfg m s = .next ((s.packed m ps).setLastErr 0))) := by
  unfold packCommand
  split
  · next h => exact .inl ⟨h, rfl⟩
  · next h =>
    refine .inr ⟨by omega, by omega, ?_⟩
    split
    · next i hi => exact .inl ⟨i, hi, rfl⟩
    · next hi => exact .inr (.inl ⟨hi, rfl⟩)
    · next ps hi => exact .inr (.inr ⟨ps, hi, rfl⟩)

/-- The cases of UNPACK.m (R186). -/
theorem unpackCommand_cases (cfg : Params) (m : Mode) (s : State) :
    unpackCommand cfg m s = .next (s.raised .capacity) ∨ unpackCommand cfg m s = .next (s.raised .malformed) ∨
    (∃ i, memReadBlock s.mem.dat s.len.toNat = .error i ∧
      unpackCommand cfg m s = .fault (.unwrittenElement .dat i)) ∨
    (s.len.toNat ≤ cfg.capDat ∧ s.width ≠ 0 ∧ s.len.toNat % bytesPerRow m s.width.toNat = 0 ∧
      s.derivedHeight m ≤ 65535 ∧ s.width.toNat * s.derivedHeight m ≤ cfg.capGrid ∧
      ∃ bytes, memReadBlock s.mem.dat s.len.toNat = .ok bytes ∧
        unpackCommand cfg m s = .next ((s.unpacked m bytes).setLastErr 0)) := by
  unfold unpackCommand
  split
  · exact .inl rfl
  · split
    · exact .inr (.inl rfl)
    · split
      · exact .inr (.inl rfl)
      · split
        · exact .inl rfl
        · split
          · next i hi => exact .inr (.inr (.inl ⟨i, hi, rfl⟩))
          · next h1 h2 h3 h4 _ bytes hb =>
            exact .inr (.inr (.inr ⟨by omega, h2, by omega, by omega, by omega, bytes, hb, rfl⟩))

/-- Resolving a list of pens keeps their number and resolves each (R193). -/
theorem resolvePens_ok {cfg : Params} {s : State} {qs : List Pen} {cs : List (Rgb × Bool)}
    (h : resolvePens cfg s qs = .ok cs) :
    cs.length = qs.length ∧ ∀ k (hk : k < qs.length), ∃ c, cs[k]? = some c ∧ resolvePen cfg s qs[k] = .ok c := by
  induction qs generalizing cs with
  | nil =>
    simp only [resolvePens, Except.ok.injEq] at h
    subst h; simp
  | cons q qs ih =>
    simp only [resolvePens] at h
    cases hq : resolvePen cfg s q with
    | error k => simp [hq] at h
    | ok c =>
      simp only [hq] at h
      cases hqs : resolvePens cfg s qs with
      | error k => simp [hqs] at h
      | ok ds =>
        simp only [hqs, Except.ok.injEq] at h
        subst h
        obtain ⟨hl, hk⟩ := ih hqs
        refine ⟨by simp [hl], fun k hkl => ?_⟩
        cases k with
        | zero => exact ⟨c, by simp, by simpa using hq⟩
        | succ k => simpa using hk k (by simpa using hkl)

/-- A pen resolves in every state whose stored inks are valid (R191). -/
theorem resolvePen_total {cfg : Params} {s : State} (h : s.storedInksValid) (q : Pen) :
    ∃ c, resolvePen cfg s q = .ok c := by
  have colour : ∀ k : InkCode, k.toNat < nhw → ∃ c, inkColour cfg k = .ok c := by
    intro k hk
    have : k.toNat < 27 := hk
    exact ⟨cfg.hwcol[k.toNat], by simp [inkColour, hwcolEntry, this]⟩
  unfold resolvePen
  split
  · obtain ⟨c, hc⟩ := colour _ (h.2 q)
    exact ⟨(c, false), by rw [hc]; rfl⟩
  · split
    · obtain ⟨c, hc⟩ := colour _ h.1
      exact ⟨(c, false), by rw [hc]; rfl⟩
    · exact ⟨_, rfl⟩

theorem resolvePens_total {cfg : Params} {s : State} (h : s.storedInksValid) (qs : List Pen) :
    ∃ cs, resolvePens cfg s qs = .ok cs := by
  induction qs with
  | nil => exact ⟨[], rfl⟩
  | cons q qs ih =>
    obtain ⟨c, hc⟩ := resolvePen_total (cfg := cfg) h q
    obtain ⟨cs, hcs⟩ := ih
    exact ⟨c :: cs, by simp [resolvePens, hc, hcs]⟩

/-- The cases of RESOLVE (R193). -/
theorem resolveCommand_cases (cfg : Params) (s : State) :
    (cfg.capGrid < s.gridSize ∧ resolveCommand cfg s = .next (s.raised .capacity)) ∨
    (s.gridSize ≤ cfg.capGrid ∧
      ((∃ i, memReadBlock s.mem.idx s.gridSize = .error i ∧
          resolveCommand cfg s = .fault (.unwrittenElement .idx i)) ∨
        (∃ qs k, memReadBlock s.mem.idx s.gridSize = .ok qs ∧ resolvePens cfg s qs = .error k ∧
          resolveCommand cfg s = .fault (.inkNotInTable k)) ∨
        ∃ qs cs, memReadBlock s.mem.idx s.gridSize = .ok qs ∧ resolvePens cfg s qs = .ok cs ∧
          resolveCommand cfg s = .next ((s.resolved cs).setLastErr 0))) := by
  unfold resolveCommand
  split
  · next h => exact .inl ⟨h, rfl⟩
  · next h =>
    refine .inr ⟨by omega, ?_⟩
    split
    · next i hi => exact .inl ⟨i, hi, rfl⟩
    · next qs hq =>
      split
      · next k hk => exact .inr (.inl ⟨qs, k, hq, hk, rfl⟩)
      · next cs hc => exact .inr (.inr ⟨qs, cs, hq, hc, rfl⟩)

/-- The cases of SETBG (R215). -/
theorem execSetbg_cases (v : Bool) (ink : InkCode) (s : State) :
    (v = false ∧ execSetbg v ink s = .next ((s.setBgink { v := false, ink := 0 }).setLastErr 0)) ∨
    (v = true ∧ ink.toNat < nhw ∧ execSetbg v ink s = .next ((s.setBgink { v := true, ink := ink }).setLastErr 0)) ∨
    (v = true ∧ nhw ≤ ink.toNat ∧ execSetbg v ink s = .next ((s.emit Warning.inkSkip.code).setLastErr 0)) := by
  unfold execSetbg
  cases v with
  | false => exact .inl ⟨rfl, rfl⟩
  | true =>
    by_cases h : ink.toNat < nhw
    · exact .inr (.inl ⟨rfl, h, by simp [inkOk, h, complete]⟩)
    · exact .inr (.inr ⟨rfl, by omega, by simp [inkOk, h, complete]⟩)

/-- The cases of SETINK (R216). -/
theorem setInkCommand_cases (policy : DupPenPolicy) (pen : Pen) (ink : InkCode) (s : State) :
    (nhw ≤ ink.toNat ∧ setInkCommand policy pen ink s = .next ((s.emit Warning.inkSkip.code).setLastErr 0)) ∨
    (ink.toNat < nhw ∧ (s.inkEntry pen).v = true ∧ policy = .firstWins ∧
      setInkCommand policy pen ink s = .next ((s.emit Warning.inkDup.code).setLastErr 0)) ∨
    (ink.toNat < nhw ∧ (s.inkEntry pen).v = true ∧ policy = .lastWins ∧
      setInkCommand policy pen ink s =
        .next (((s.emit Warning.inkDup.code).setInkEntry pen { v := true, ink := ink }).setLastErr 0)) ∨
    (ink.toNat < nhw ∧ (s.inkEntry pen).v = false ∧
      setInkCommand policy pen ink s = .next ((s.setInkEntry pen { v := true, ink := ink }).setLastErr 0)) := by
  unfold setInkCommand
  by_cases h : ink.toNat < nhw
  · right
    cases hv : (s.inkEntry pen).v with
    | true =>
      cases policy with
      | firstWins => exact .inl ⟨h, rfl, rfl, by simp [inkOk, h, complete]⟩
      | lastWins => exact .inr (.inl ⟨h, rfl, rfl, by simp [inkOk, h, complete]⟩)
    | false => exact .inr (.inr ⟨h, rfl, by simp [inkOk, h, complete]⟩)
  · exact .inl ⟨by omega, by simp [inkOk, h, complete]⟩

/-- What a command's events can be: none, one warning other than W_PALETTE, or the first W_PALETTE of the run (R245). -/
def EventStep (s t : State) : Prop :=
  (t.diag = s.diag ∧ t.warned = s.warned) ∨
  (∃ w : Warning, w ≠ .palette ∧ t.diag = s.diag ++ [w.code] ∧ t.warned = s.warned) ∨
  (s.warned = false ∧ t.warned = true ∧ t.diag = s.diag ++ [Warning.palette.code])

/-- What every completed command leaves alone or keeps. -/
structure Completed (s t : State) : Prop where
  lastErr : t.lastErr = 0
  errCnt : t.errCnt = s.errCnt
  fatal : t.fatal = s.fatal
  pix : t.mem.pix = s.mem.pix
  hostQueue : t.hostQueue = s.hostQueue
  replies : t.replies = s.replies
  events : EventStep s t
  memory : s.memoryGood Config.params → t.memoryGood Config.params
  inks : s.storedInksValid → t.storedInksValid

/-- Good memory stays good when one buffer takes a block that fits its space. -/
theorem memoryGood_setIdx {s t : State} {vs : List Pen} (hm : t.mem = { s.mem with idx := memWriteBlock s.mem.idx vs })
    (hl : vs.length ≤ Config.params.capGrid) (h : s.memoryGood Config.params) : t.memoryGood Config.params := by
  obtain ⟨hw, hb⟩ := h
  simp only [Memory.wf, Bool.and_eq_true] at hw
  refine ⟨?_, ?_⟩
  · rw [hm]; simp only [Memory.wf, Bool.and_eq_true]
    exact ⟨⟨⟨hw.1.1.1, wf_memWriteBlock vs hw.1.1.2⟩, hw.1.2⟩, hw.2⟩
  · rw [hm]; exact { hb with idx := within_memWriteBlock vs hb.idx hl }

theorem memoryGood_setDat {s t : State} {vs : List Byte} (hm : t.mem = { s.mem with dat := memWriteBlock s.mem.dat vs })
    (hl : vs.length ≤ Config.params.capDat) (h : s.memoryGood Config.params) : t.memoryGood Config.params := by
  obtain ⟨hw, hb⟩ := h
  simp only [Memory.wf, Bool.and_eq_true] at hw
  refine ⟨?_, ?_⟩
  · rw [hm]; simp only [Memory.wf, Bool.and_eq_true]
    exact ⟨⟨hw.1.1, wf_memWriteBlock vs hw.1.2⟩, hw.2⟩
  · rw [hm]; exact { hb with dat := within_memWriteBlock vs hb.dat hl }

theorem memoryGood_setRgb {s t : State} {vs : List Rgb} (hm : t.mem = { s.mem with rgb := memWriteBlock s.mem.rgb vs })
    (hl : vs.length ≤ Config.params.capGrid) (h : s.memoryGood Config.params) : t.memoryGood Config.params := by
  obtain ⟨hw, hb⟩ := h
  simp only [Memory.wf, Bool.and_eq_true] at hw
  refine ⟨?_, ?_⟩
  · rw [hm]; simp only [Memory.wf, Bool.and_eq_true]
    exact ⟨hw.1, wf_memWriteBlock vs hw.2⟩
  · rw [hm]; exact { hb with rgb := within_memWriteBlock vs hb.rgb hl }

/-- The stored inks stay valid where neither BGINK nor INKMAP changes. -/
theorem storedInksValid_of_same {s t : State} (hb : t.bgink = s.bgink) (hi : t.inkMap = s.inkMap)
    (h : s.storedInksValid) : t.storedInksValid := by
  refine ⟨by rw [hb]; exact h.1, fun q => ?_⟩
  have : t.inkEntry q = s.inkEntry q := by simp [State.inkEntry, hi]
  rw [this]; exact h.2 q

/-- The stored inks stay valid when one entry takes a valid ink. -/
theorem storedInksValid_setInkEntry {s : State} {q : Pen} {e : InkEntry} (he : e.ink.toNat < nhw)
    (h : s.storedInksValid) : (s.setInkEntry q e).storedInksValid := by
  refine ⟨h.1, fun r => ?_⟩
  by_cases hr : r = q
  · subst hr; simpa using he
  · rw [State.inkEntry_setInkEntry_other s q r e hr]; exact h.2 r

theorem State.matched_fields (s : State) (cfg : Params) (m : Mode) (pxs : List Pixel) :
    (s.matched cfg m pxs).mem =
        { s.mem with idx := memWriteBlock s.mem.idx ((pxs.map (matchPx cfg m s.tink)).map Prod.fst) } ∧
      (s.matched cfg m pxs).width = s.width ∧ (s.matched cfg m pxs).errCnt = s.errCnt ∧
      (s.matched cfg m pxs).fatal = s.fatal ∧ (s.matched cfg m pxs).hostQueue = s.hostQueue ∧
      (s.matched cfg m pxs).replies = s.replies ∧ (s.matched cfg m pxs).bgink = s.bgink ∧
      (s.matched cfg m pxs).inkMap = s.inkMap := by
  unfold State.matched
  dsimp only
  split <;> simp

/-- What MATCH.m emits (R125, R126). -/
theorem State.matched_events (s : State) (cfg : Params) (m : Mode) (pxs : List Pixel) :
    EventStep s (s.matched cfg m pxs) := by
  unfold State.matched EventStep
  dsimp only
  split
  · cases hw : s.warned with
    | true => exact .inl ⟨by simp [hw], by simp⟩
    | false => exact .inr (.inr ⟨rfl, by simp, by simp [hw]⟩)
  · exact .inl ⟨rfl, rfl⟩

theorem matchCommand_completed {m : Mode} {s t : State} (h : matchCommand Config.params m s = .next t) :
    (∃ e, t = s.raised e) ∨ Completed s t := by
  rcases matchCommand_cases Config.params m s with ⟨-, hc⟩ | ⟨-, i, -, hc⟩ | ⟨hcap, pxs, hp, hc⟩
  · rw [hc] at h; cases h; exact .inl ⟨_, rfl⟩
  · rw [hc] at h; cases h
  · rw [hc] at h; cases h
    obtain ⟨hm, hwd, hec, hf, hq, hr, hbg, him⟩ := State.matched_fields s Config.params m pxs
    have hlen := ((memReadBlock_ok_iff _ _ _).1 hp).1
    right
    exact
      { lastErr := rfl, errCnt := hec, fatal := hf, pix := by simp [hm], hostQueue := hq, replies := hr
        events := State.matched_events s Config.params m pxs
        memory := memoryGood_setIdx hm (by simp [hlen, hcap])
        inks := storedInksValid_of_same hbg him }

theorem packCommand_completed {m : Mode} {s t : State} (h : packCommand Config.params m s = .next t) :
    (∃ e, t = s.raised e) ∨ Completed s t := by
  rcases packCommand_cases Config.params m s with ⟨-, hc⟩ | ⟨-, hcap, ⟨i, -, hc⟩ | ⟨-, hc⟩ | ⟨ps, -, hc⟩⟩
  · rw [hc] at h; cases h; exact .inl ⟨_, rfl⟩
  · rw [hc] at h; cases h
  · rw [hc] at h; cases h; exact .inl ⟨_, rfl⟩
  · rw [hc] at h; cases h
    right
    exact
      { lastErr := rfl, errCnt := rfl, fatal := rfl, pix := rfl, hostQueue := rfl, replies := rfl
        events := .inl ⟨rfl, rfl⟩
        memory := memoryGood_setDat (vs := packGrid m s.width.toNat s.height.toNat ps) rfl (by simpa [State.packedSize] using hcap)
        inks := storedInksValid_of_same rfl rfl }

theorem unpackCommand_completed {m : Mode} {s t : State} (h : unpackCommand Config.params m s = .next t) :
    (∃ e, t = s.raised e) ∨ Completed s t := by
  rcases unpackCommand_cases Config.params m s with hc | hc | ⟨i, -, hc⟩ | ⟨-, -, -, -, hcap, bytes, -, hc⟩
  · rw [hc] at h; cases h; exact .inl ⟨_, rfl⟩
  · rw [hc] at h; cases h; exact .inl ⟨_, rfl⟩
  · rw [hc] at h; cases h
  · rw [hc] at h; cases h
    right
    exact
      { lastErr := rfl, errCnt := rfl, fatal := rfl, pix := rfl, hostQueue := rfl, replies := rfl
        events := .inl ⟨rfl, rfl⟩
        memory := memoryGood_setIdx (vs := unpackGrid m s.width.toNat (s.derivedHeight m) bytes) rfl (by simpa using hcap)
        inks := storedInksValid_of_same rfl rfl }

theorem resolveCommand_completed {s t : State} (h : resolveCommand Config.params s = .next t) :
    (∃ e, t = s.raised e) ∨ Completed s t := by
  rcases resolveCommand_cases Config.params s with ⟨-, hc⟩ | ⟨hcap, ⟨i, -, hc⟩ | ⟨qs, k, -, -, hc⟩ | ⟨qs, cs, hq, hcs, hc⟩⟩
  · rw [hc] at h; cases h; exact .inl ⟨_, rfl⟩
  · rw [hc] at h; cases h
  · rw [hc] at h; cases h
  · rw [hc] at h; cases h
    have hlen : cs.length ≤ Config.params.capGrid := by
      rw [(resolvePens_ok hcs).1, ((memReadBlock_ok_iff _ _ _).1 hq).1]; exact hcap
    have hm : (s.resolved cs).mem = { s.mem with rgb := memWriteBlock s.mem.rgb (cs.map Prod.fst) } := by
      unfold State.resolved; dsimp only; split <;> rfl
    right
    unfold State.resolved at hm ⊢
    dsimp only at hm ⊢
    split at hm
    · next hw =>
      rw [if_pos hw]
      exact
        { lastErr := rfl, errCnt := rfl, fatal := rfl, pix := rfl, hostQueue := rfl, replies := rfl
          events := .inr (.inl ⟨.missInk, by decide, rfl, rfl⟩)
          memory := memoryGood_setRgb (vs := cs.map Prod.fst) rfl (by simpa using hlen)
          inks := storedInksValid_of_same rfl rfl }
    · next hw =>
      rw [if_neg hw]
      exact
        { lastErr := rfl, errCnt := rfl, fatal := rfl, pix := rfl, hostQueue := rfl, replies := rfl
          events := .inl ⟨rfl, rfl⟩
          memory := memoryGood_setRgb (vs := cs.map Prod.fst) rfl (by simpa using hlen)
          inks := storedInksValid_of_same rfl rfl }

theorem execSetbg_completed {v : Bool} {ink : InkCode} {s t : State} (h : execSetbg v ink s = .next t) :
    Completed s t := by
  rcases execSetbg_cases v ink s with ⟨-, hc⟩ | ⟨-, hk, hc⟩ | ⟨-, -, hc⟩ <;> (rw [hc] at h; cases h)
  · exact
      { lastErr := rfl, errCnt := rfl, fatal := rfl, pix := rfl, hostQueue := rfl, replies := rfl
        events := .inl ⟨rfl, rfl⟩, memory := id
        inks := fun hi => ⟨by simp [nhw], hi.2⟩ }
  · exact
      { lastErr := rfl, errCnt := rfl, fatal := rfl, pix := rfl, hostQueue := rfl, replies := rfl
        events := .inl ⟨rfl, rfl⟩, memory := id
        inks := fun hi => ⟨hk, hi.2⟩ }
  · exact
      { lastErr := rfl, errCnt := rfl, fatal := rfl, pix := rfl, hostQueue := rfl, replies := rfl
        events := .inr (.inl ⟨.inkSkip, by decide, rfl, rfl⟩), memory := id
        inks := id }

theorem setInkCommand_completed {policy : DupPenPolicy} {pen : Pen} {ink : InkCode} {s t : State}
    (h : setInkCommand policy pen ink s = .next t) : Completed s t := by
  rcases setInkCommand_cases policy pen ink s with ⟨-, hc⟩ | ⟨-, -, -, hc⟩ | ⟨hk, -, -, hc⟩ | ⟨hk, -, hc⟩ <;>
    (rw [hc] at h; cases h)
  · exact
      { lastErr := rfl, errCnt := rfl, fatal := rfl, pix := rfl, hostQueue := rfl, replies := rfl
        events := .inr (.inl ⟨.inkSkip, by decide, rfl, rfl⟩), memory := id
        inks := id }
  · exact
      { lastErr := rfl, errCnt := rfl, fatal := rfl, pix := rfl, hostQueue := rfl, replies := rfl
        events := .inr (.inl ⟨.inkDup, by decide, rfl, rfl⟩), memory := id
        inks := id }
  · exact
      { lastErr := rfl, errCnt := rfl, fatal := rfl, pix := rfl, hostQueue := rfl, replies := rfl
        events := .inr (.inl ⟨.inkDup, by decide, rfl, rfl⟩), memory := id
        inks := fun hi => storedInksValid_setInkEntry (s := s) hk hi }
  · exact
      { lastErr := rfl, errCnt := rfl, fatal := rfl, pix := rfl, hostQueue := rfl, replies := rfl
        events := .inl ⟨rfl, rfl⟩, memory := id
        inks := fun hi => storedInksValid_setInkEntry (s := s) hk hi }

/-- A register write of no ink completes. -/
theorem completed_of_register {s t : State} (hw : t.mem = s.mem) (hl : t.lastErr = 0) (hc : t.errCnt = s.errCnt)
    (hf : t.fatal = s.fatal) (hq : t.hostQueue = s.hostQueue) (hr : t.replies = s.replies) (hd : t.diag = s.diag)
    (hwn : t.warned = s.warned) (hi : s.storedInksValid → t.storedInksValid) : Completed s t :=
  { lastErr := hl, errCnt := hc, fatal := hf, pix := by rw [hw], hostQueue := hq, replies := hr
    events := .inl ⟨hd, hwn⟩
    memory := fun h => by unfold State.memoryGood; rw [hw]; exact h
    inks := hi }

/-- Every command that answers a next state has raised one error, with nothing else of its own done, or has completed
(R246, R31). -/
theorem exec_next_cases {i : Instr} {s t : State} (h : exec i s = .next t) :
    (∃ e, t = s.raised e) ∨ Completed s t := by
  cases i with
  | setw n => cases h; exact .inr (completed_of_register rfl rfl rfl rfl rfl rfl rfl rfl id)
  | seth n => cases h; exact .inr (completed_of_register rfl rfl rfl rfl rfl rfl rfl rfl id)
  | setlen n => cases h; exact .inr (completed_of_register rfl rfl rfl rfl rfl rfl rfl rfl id)
  | setti v idx => cases h; exact .inr (completed_of_register rfl rfl rfl rfl rfl rfl rfl rfl id)
  | setbg v ink => exact .inr (execSetbg_completed h)
  | setink pen ink => exact .inr (setInkCommand_completed h)
  | clrink =>
    cases h
    refine .inr (completed_of_register rfl rfl rfl rfl rfl rfl rfl rfl fun hi => ⟨hi.1, fun q => ?_⟩)
    simp [State.inkEntry, nhw]
  | match0 => exact matchCommand_completed h
  | match1 => exact matchCommand_completed h
  | match2 => exact matchCommand_completed h
  | pack0 => exact packCommand_completed h
  | pack1 => exact packCommand_completed h
  | pack2 => exact packCommand_completed h
  | unpack0 => exact unpackCommand_completed h
  | unpack1 => exact unpackCommand_completed h
  | unpack2 => exact unpackCommand_completed h
  | resolve => exact resolveCommand_completed h
  | match3 => cases h; exact .inl ⟨_, rfl⟩
  | pack3 => cases h; exact .inl ⟨_, rfl⟩
  | unpack3 => cases h; exact .inl ⟨_, rfl⟩

end Sys2Proof.Machine
end

