-- ==== Sys2Proof/Laws/Layout.lean ====
section
/-! SUPPORT. What the grid and block layout comes to (20_memory R64, R65), one bit of a packed byte or an unpacked pen
(41 R153, 42 R181), one byte PACK writes and one pen UNPACK writes, and which input read stops first. -/

namespace Sys2Proof.Machine

variable {α : Type}

/-- One bit of `putBit`. -/
theorem getLsbD_putBit {n : Nat} (v : BitVec n) (i : Nat) (x : Bool) (j : Nat) :
    (putBit v i x).getLsbD j = if j = i ∧ i < n then x else v.getLsbD j := by
  unfold putBit
  by_cases hj : j < n
  · by_cases h : i = j
    · subst h; cases x <;> simp [hj]
    · cases x <;> simp [hj, Ne.symm h]
  · have high : ∀ b : BitVec n, b.getLsbD j = false := fun b => BitVec.getLsbD_of_ge b j (by omega)
    rw [high, high, if_neg (by omega)]

/-- A packed byte depends only on the slots of the mode. -/
theorem packByte_congr (m : Mode) (f g : Nat → Pen) (h : ∀ k, k < ppb m → f k = g k) :
    packByte m f = packByte m g := by
  cases m <;> simp only [ppb] at h <;> simp [packByte, ppb, List.range_succ, h]

theorem ppb_pos (m : Mode) : 0 < ppb m := by cases m <;> simp [ppb]

/-- A column's byte lies in its row (R65). -/
theorem chunk_lt_bytesPerRow {m : Mode} {w x : Nat} (h : x < w) : x / ppb m < bytesPerRow m w := by
  unfold bytesPerRow ceilDiv
  cases m <;> simp only [ppb] <;> omega

theorem bytesPerRow_pos {m : Mode} {w : Nat} (h : w ≠ 0) : 0 < bytesPerRow m w :=
  Nat.lt_of_le_of_lt (Nat.zero_le _) (chunk_lt_bytesPerRow (m := m) (x := 0) (Nat.pos_of_ne_zero h))

/-- A row of whole chunks has no padding. -/
theorem bytesPerRow_mul {m : Mode} {w : Nat} (h : w % ppb m = 0) : bytesPerRow m w * ppb m = w := by
  unfold bytesPerRow ceilDiv
  cases m <;> simp only [ppb] at * <;> omega

/-- Element `c` of row `y` lies in a grid of rows of `a` elements (R64, R65). -/
theorem rowMajor_lt {a b y c : Nat} (hy : y < b) (hc : c < a) : y * a + c < a * b := by
  have : (y + 1) * a ≤ b * a := Nat.mul_le_mul_right _ hy
  rw [Nat.mul_comm b a, Nat.add_mul, Nat.one_mul] at this
  omega

/-- Row and column of a row-major index. -/
theorem rowMajor_div_mod {a y c : Nat} (hc : c < a) : (y * a + c) / a = y ∧ (y * a + c) % a = c := by
  have ha : 0 < a := by omega
  rw [Nat.add_comm, Nat.add_mul_div_right _ _ ha, Nat.div_eq_of_lt hc, Nat.add_mul_mod_self_right,
    Nat.mod_eq_of_lt hc]
  simp

/-- An isolating error leaves LASTERR, ERRCNT and DIAG changed and nothing else (R246). -/
theorem State.raised_isolating (s : State) (e : ErrorKind) (hf : s.fatal = false) (he : e ≠ .mode) :
    s.raised e =
      { s with lastErr := e.code, errCnt := countError s.errCnt, diag := s.diag ++ [e.event] } := by
  cases e <;> simp [State.raised, ErrorKind.isFatal, hf] at *

theorem exec_matchInstr (m : Mode) (s : State) : exec (matchInstr m) s = matchCommand Config.params m s := by
  cases m <;> rfl

theorem exec_packInstr (m : Mode) (s : State) : exec (packInstr m) s = packCommand Config.params m s := by
  cases m <;> rfl

theorem exec_unpackInstr (m : Mode) (s : State) : exec (unpackInstr m) s = unpackCommand Config.params m s := by
  cases m <;> rfl

theorem exec_resolve (s : State) : exec .resolve s = resolveCommand Config.params s := rfl

/-- MATCH completes on a grid that fits and is written (R126). -/
theorem matchCommand_of_read {cfg : Params} {m : Mode} {s : State} {pxs : List Pixel} (hg : s.gridSize ≤ cfg.capGrid)
    (hr : memReadBlock s.mem.pix s.gridSize = .ok pxs) :
    matchCommand cfg m s = .next ((s.matched cfg m pxs).setLastErr 0) := by
  unfold matchCommand
  rw [if_neg (Nat.not_lt.2 hg), hr]; rfl

/-- PACK completes on a grid of the mode's pens that fits with its bytes (R156). -/
theorem packCommand_of_pens {cfg : Params} {m : Mode} {s : State} {ps : List Pen} (hg : s.gridSize ≤ cfg.capGrid)
    (hd : s.packedSize m ≤ cfg.capDat) (hp : scanPens s.mem.idx (ncol m) s.gridSize = .pens ps) :
    packCommand cfg m s = .next ((s.packed m ps).setLastErr 0) := by
  unfold packCommand
  rw [if_neg (by omega), hp]; rfl

/-- UNPACK completes on a written block of whole rows that fits with its grid (R186). -/
theorem unpackCommand_of_read {cfg : Params} {m : Mode} {s : State} {bytes : List Byte}
    (hl : s.len.toNat ≤ cfg.capDat) (hw : s.width ≠ 0) (whole : s.len.toNat % bytesPerRow m s.width.toNat = 0)
    (hh : s.derivedHeight m ≤ 65535) (hg : s.width.toNat * s.derivedHeight m ≤ cfg.capGrid)
    (hr : memReadBlock s.mem.dat s.len.toNat = .ok bytes) :
    unpackCommand cfg m s = .next ((s.unpacked m bytes).setLastErr 0) := by
  unfold unpackCommand
  rw [if_neg (by omega), if_neg hw, if_neg (by omega), if_neg (by omega), hr]; rfl

/-- RESOLVE completes on a written grid that fits, its stored inks in the table (R193). -/
theorem resolveCommand_of_read {cfg : Params} {s : State} {qs : List Pen} {cs : List (Rgb × Bool)}
    (hg : s.gridSize ≤ cfg.capGrid) (hr : memReadBlock s.mem.idx s.gridSize = .ok qs)
    (hc : resolvePens cfg s qs = .ok cs) :
    resolveCommand cfg s = .next ((s.resolved cs).setLastErr 0) := by
  unfold resolveCommand
  rw [if_neg (Nat.not_lt.2 hg), hr]
  simp only [hc]; rfl

/-- A block whose first unwritten element is `i` stops there (R73). -/
theorem memReadBlock_unwritten {b : Buffer α} {n i : Nat} (hi : i < n) (hw : Written b i)
    (hn : memRead b i = none) : memReadBlock b n = .error i := by
  cases h : memReadBlock b n with
  | ok vs =>
    obtain ⟨v, hv⟩ := written_of_memReadBlock h i hi
    simp [hn] at hv
  | error k =>
    obtain ⟨-, h2, h3⟩ := memReadBlock_error h
    rcases lt_trichotomy k i with h4 | rfl | h4
    · obtain ⟨v, hv⟩ := hw k h4
      simp [h2] at hv
    · rfl
    · obtain ⟨v, hv⟩ := h3 i h4
      simp [hn] at hv

/-- PACK's check accepts a grid of the mode's pens (R156). -/
theorem scanPens_of_pensOfMode {m : Mode} {b : Buffer Pen} {n : Nat} (h : PensOfMode m b n) :
    ∃ ps, scanPens b (ncol m) n = .pens ps := by
  cases hs : scanPens b (ncol m) n with
  | pens ps => exact ⟨ps, rfl⟩
  | outOfRange =>
    obtain ⟨k, p, hk, hp, hb, -⟩ := scanPensFrom_outOfRange hs
    obtain ⟨q, hq, hlt⟩ := h k hk
    simp only [Nat.zero_add] at hp
    rw [hp] at hq; cases hq; omega
  | unwritten k =>
    obtain ⟨-, h2, h3⟩ := scanPensFrom_unwritten hs
    obtain ⟨q, hq, -⟩ := h k (by omega)
    simp [h3] at hq

/-- PACK's check stops at the first unwritten element when every element before it is a pen of the mode. -/
theorem scanPensFrom_stops {m : Mode} (b : Buffer Pen) (d i n : Nat) (hd : d < n)
    (hp : ∀ j, j < d → ∃ p, memRead b (i + j) = some p ∧ p.toNat < ncol m) (hn : memRead b (i + d) = none) :
    scanPensFrom b (ncol m) i n = .unwritten (i + d) := by
  induction d generalizing i n with
  | zero =>
    obtain ⟨n, rfl⟩ : ∃ k, n = k + 1 := ⟨n - 1, by omega⟩
    simp only [Nat.add_zero] at hn
    simp [scanPensFrom, hn]
  | succ d ih =>
    obtain ⟨n, rfl⟩ : ∃ k, n = k + 1 := ⟨n - 1, by omega⟩
    obtain ⟨p, h1, h2⟩ := hp 0 (by omega)
    have next := ih (i + 1) n (by omega)
      (fun j hj => by
        obtain ⟨q, h3⟩ := hp (j + 1) (by omega)
        exact ⟨q, by rwa [show i + 1 + j = i + (j + 1) by omega]⟩)
      (by rwa [show i + 1 + d = i + (d + 1) by omega])
    simp only [Nat.add_zero] at h1
    simp only [scanPensFrom, h1, if_neg (show ¬ ncol m ≤ p.toNat by omega), next]
    congr 1; omega

/-- One byte PACK writes: chunk `c` of row `y`, its slots beyond the row as pen 0 (R154 to R156). -/
theorem State.packed_dat (s : State) (m : Mode) (ps : List Pen)
    (hk : ∀ k, k < s.gridSize → memRead s.mem.idx k = ps[k]?) (y c : Nat) (ch : Nat → Pen)
    (hy : y < s.height.toNat) (hc : c < bytesPerRow m s.width.toNat)
    (inside : ∀ k, k < ppb m → c * ppb m + k < s.width.toNat →
      memRead s.mem.idx (y * s.width.toNat + c * ppb m + k) = some (ch k))
    (beyond : ∀ k, k < ppb m → s.width.toNat ≤ c * ppb m + k → ch k = 0) :
    memRead (s.packed m ps).mem.dat (y * bytesPerRow m s.width.toNat + c) = some (packByte m ch) := by
  simp only [State.packed, State.setLen_mem, State.setMem_mem]
  have hlt : y * bytesPerRow m s.width.toNat + c < (packGrid m s.width.toNat s.height.toNat ps).length := by
    rw [packGrid_length]; exact rowMajor_lt hy hc
  rw [memRead_memWriteBlock_lt _ _ hlt, packGrid_getElem, (rowMajor_div_mod hc).1, (rowMajor_div_mod hc).2]
  congr 1
  refine packByte_congr m _ _ fun k hkp => ?_
  unfold penAt
  split
  · next hw =>
    have hn : y * s.width.toNat + c * ppb m + k < s.gridSize := by
      have := rowMajor_lt hy hw
      rwa [← Nat.add_assoc] at this
    have := inside k hkp hw
    rw [hk _ hn] at this
    rw [List.getD_eq_getElem?_getD, this]; rfl
  · next hw => rw [beyond k hkp (by omega)]

/-- One pen UNPACK writes: slot `x mod p` of byte `x div p` of row `y` (R186). -/
theorem State.unpacked_idx (s : State) (m : Mode) (bytes : List Byte)
    (whole : s.len.toNat % bytesPerRow m s.width.toNat = 0)
    (hk : ∀ k, k < s.len.toNat → memRead s.mem.dat k = bytes[k]?) (y x : Nat) (b : Byte)
    (hy : y < s.derivedHeight m) (hx : x < s.width.toNat)
    (hb : memRead s.mem.dat (y * bytesPerRow m s.width.toNat + x / ppb m) = some b) :
    memRead (s.unpacked m bytes).mem.idx (y * s.width.toNat + x) = some (unpackByte m b (x % ppb m)) := by
  simp only [State.unpacked, State.setHeight_mem, State.setMem_mem]
  have hlt : y * s.width.toNat + x < (unpackGrid m s.width.toNat (s.derivedHeight m) bytes).length := by
    rw [unpackGrid_length]; exact rowMajor_lt hy hx
  rw [memRead_memWriteBlock_lt _ _ hlt, unpackGrid_getElem, (rowMajor_div_mod hx).1, (rowMajor_div_mod hx).2]
  have hn : y * bytesPerRow m s.width.toNat + x / ppb m < s.len.toNat := by
    have h1 := rowMajor_lt hy (chunk_lt_bytesPerRow (m := m) hx)
    have h2 := Nat.div_add_mod s.len.toNat (bytesPerRow m s.width.toNat)
    unfold State.derivedHeight at h1
    omega
  rw [hk _ hn] at hb
  unfold unpackedPen
  rw [List.getD_eq_getElem?_getD, hb]; rfl

end Sys2Proof.Machine
end

