-- ==== Sys2Proof/Laws/PerInstr.lean ====
section
/-! SUPPORT. The per-instruction family RoundTrip: decoding the word of an instruction gives it back (30_encoding R92 to
R97), one lemma per constructor. -/

namespace Sys2Proof.Laws.RoundTrip

/-- What the family says of an instruction. -/
def Statement (i : Instr) : Prop := decode (encode i) = .ok i

/-- A field of a word is a quotient and remainder of its number. -/
theorem field_eq_of_toNat {w : Word} {lo n : Nat} {v : BitVec n} (h : w.toNat / 2 ^ lo % 2 ^ n = v.toNat) :
    w.extractLsb' lo n = v :=
  BitVec.eq_of_toNat_eq (by rw [BitVec.extractLsb'_toNat, Nat.shiftRight_eq_div_pow, h])

theorem setw (n : BitVec 16) : Statement (.setw n) := by
  have hn := n.isLt
  have hw : (encode (.setw n)).toNat = 0x10000000 + n.toNat := by simp [encode]; omega
  have op : (encode (.setw n)).extractLsb' 28 4 = 1 := field_eq_of_toNat (by rw [hw]; simp; omega)
  have z : (encode (.setw n)).extractLsb' 16 12 = 0 := field_eq_of_toNat (by rw [hw]; simp; omega)
  have f : (encode (.setw n)).extractLsb' 0 16 = n := field_eq_of_toNat (by rw [hw]; omega)
  simp [Statement, decode, op, z, f, whenZero]

theorem seth (n : BitVec 16) : Statement (.seth n) := by
  have hn := n.isLt
  have hw : (encode (.seth n)).toNat = 0x20000000 + n.toNat := by simp [encode]; omega
  have op : (encode (.seth n)).extractLsb' 28 4 = 2 := field_eq_of_toNat (by rw [hw]; simp; omega)
  have z : (encode (.seth n)).extractLsb' 16 12 = 0 := field_eq_of_toNat (by rw [hw]; simp; omega)
  have f : (encode (.seth n)).extractLsb' 0 16 = n := field_eq_of_toNat (by rw [hw]; omega)
  simp [Statement, decode, op, z, f, whenZero]

theorem setlen (n : BitVec 24) : Statement (.setlen n) := by
  have hn := n.isLt
  have hw : (encode (.setlen n)).toNat = 0x30000000 + n.toNat := by simp [encode]; omega
  have op : (encode (.setlen n)).extractLsb' 28 4 = 3 := field_eq_of_toNat (by rw [hw]; simp; omega)
  have z : (encode (.setlen n)).extractLsb' 24 4 = 0 := field_eq_of_toNat (by rw [hw]; simp; omega)
  have f : (encode (.setlen n)).extractLsb' 0 24 = n := field_eq_of_toNat (by rw [hw]; omega)
  simp [Statement, decode, op, z, f, whenZero]

theorem setti (v : Bool) (idx : Pen) : Statement (.setti v idx) := by
  have hi := idx.isLt
  have hv : v.toNat < 2 := Bool.toNat_lt v
  have hw : (encode (.setti v idx)).toNat = 0x40000000 + v.toNat * 16 + idx.toNat := by simp [encode]; omega
  have op : (encode (.setti v idx)).extractLsb' 28 4 = 4 := field_eq_of_toNat (by rw [hw]; simp; omega)
  have z : (encode (.setti v idx)).extractLsb' 5 23 = 0 := field_eq_of_toNat (by rw [hw]; simp; omega)
  have fv : (encode (.setti v idx)).extractLsb' 4 1 = BitVec.ofBool v :=
    field_eq_of_toNat (by rw [hw, BitVec.toNat_ofBool]; omega)
  have fi : (encode (.setti v idx)).extractLsb' 0 4 = idx := field_eq_of_toNat (by rw [hw]; omega)
  cases v <;> simp [Statement, decode, op, z, fv, fi, whenZero]

theorem setbg (v : Bool) (ink : InkCode) : Statement (.setbg v ink) := by
  have hi := ink.isLt
  have hv : v.toNat < 2 := Bool.toNat_lt v
  have hw : (encode (.setbg v ink)).toNat = 0x50000000 + v.toNat * 32 + ink.toNat := by simp [encode]; omega
  have op : (encode (.setbg v ink)).extractLsb' 28 4 = 5 := field_eq_of_toNat (by rw [hw]; simp; omega)
  have z : (encode (.setbg v ink)).extractLsb' 6 22 = 0 := field_eq_of_toNat (by rw [hw]; simp; omega)
  have fv : (encode (.setbg v ink)).extractLsb' 5 1 = BitVec.ofBool v :=
    field_eq_of_toNat (by rw [hw, BitVec.toNat_ofBool]; omega)
  have fi : (encode (.setbg v ink)).extractLsb' 0 5 = ink := field_eq_of_toNat (by rw [hw]; omega)
  cases v <;> simp [Statement, decode, op, z, fv, fi, whenZero]

theorem setink (pen : Pen) (ink : InkCode) : Statement (.setink pen ink) := by
  have hp := pen.isLt
  have hi := ink.isLt
  have hw : (encode (.setink pen ink)).toNat = 0x60000000 + pen.toNat * 256 + ink.toNat := by simp [encode]; omega
  have op : (encode (.setink pen ink)).extractLsb' 28 4 = 6 := field_eq_of_toNat (by rw [hw]; simp; omega)
  have z1 : (encode (.setink pen ink)).extractLsb' 12 16 = 0 := field_eq_of_toNat (by rw [hw]; simp; omega)
  have z2 : (encode (.setink pen ink)).extractLsb' 5 3 = 0 := field_eq_of_toNat (by rw [hw]; simp; omega)
  have fp : (encode (.setink pen ink)).extractLsb' 8 4 = pen := field_eq_of_toNat (by rw [hw]; omega)
  have fi : (encode (.setink pen ink)).extractLsb' 0 5 = ink := field_eq_of_toNat (by rw [hw]; omega)
  simp [Statement, decode, op, z1, z2, fp, fi, whenZero]

theorem clrink : Statement .clrink := by unfold Statement; rfl

theorem match0 : Statement .match0 := by unfold Statement; rfl

theorem match1 : Statement .match1 := by unfold Statement; rfl

theorem match2 : Statement .match2 := by unfold Statement; rfl

theorem pack0 : Statement .pack0 := by unfold Statement; rfl

theorem pack1 : Statement .pack1 := by unfold Statement; rfl

theorem pack2 : Statement .pack2 := by unfold Statement; rfl

theorem unpack0 : Statement .unpack0 := by unfold Statement; rfl

theorem unpack1 : Statement .unpack1 := by unfold Statement; rfl

theorem unpack2 : Statement .unpack2 := by unfold Statement; rfl

theorem resolve : Statement .resolve := by unfold Statement; rfl

theorem match3 : Statement .match3 := by unfold Statement; rfl

theorem pack3 : Statement .pack3 := by unfold Statement; rfl

theorem unpack3 : Statement .unpack3 := by unfold Statement; rfl

end Sys2Proof.Laws.RoundTrip
end

