-- ==== Sys2Proof/Laws/Step.lean ====
section
/-! SUPPORT. What a step can do, said once: the cases of `step` and of each action of the host. -/

namespace Sys2Proof.Machine

/-- A step waits, or performs the host's next action (R71). -/
theorem step_next_cases {s t : State} (h : step s = .next t) :
    (s.hostQueue = [] ∧ t = s) ∨
    ∃ a rest, s.hostQueue = a :: rest ∧ hostAct a (s.setHostQueue rest) = .next t := by
  unfold step nextAction at h
  split at h
  · next hq => cases h; exact .inl ⟨hq, rfl⟩
  · next a rest hq => exact .inr ⟨a, rest, hq, h⟩

/-- A step with an action pending performs it. -/
theorem step_of_action {s : State} {a : HostAction} {rest : List HostAction} (h : s.hostQueue = a :: rest) :
    step s = hostAct a (s.setHostQueue rest) := by
  unfold step nextAction
  rw [h]

/-- The decode procedure of R95. -/
theorem issueCommand_next_cases {w : Word} {s t : State} (h : issueCommand w s = .next t) :
    (s.fatal = true ∧ t = s) ∨
    (s.fatal = false ∧ (∃ r, decode w = .error r) ∧ t = s.raised .illegal) ∨
    (s.fatal = false ∧ ∃ i, decode w = .ok i ∧ exec i s = .next t) := by
  unfold issueCommand at h
  split at h
  · next hf => cases h; exact .inl ⟨hf, rfl⟩
  · next hf =>
    have hf' : s.fatal = false := by simpa using hf
    split at h
    · next r hr => cases h; exact .inr (.inl ⟨hf', ⟨r, hr⟩, rfl⟩)
    · next i hi => exact .inr (.inr ⟨hf', i, hi, h⟩)

/-- What each action of the host does when it answers a next state. -/
theorem hostAct_next_cases {a : HostAction} {s t : State} (h : hostAct a s = .next t) :
    (∃ w, a = .command w ∧ issueCommand w s = .next t) ∨
    (∃ i e, a = .write i e ∧ i < capacity Config.params e.space ∧ t = s.setMem (memWriteElem s.mem i e)) ∨
    (∃ sp i e, a = .read sp i ∧ memReadElem s.mem sp i = some e ∧ t = s.reply (.elem e)) ∨
    (∃ n v, a = .readReg n ∧ readRegister s n = some v ∧ t = s.reply (.reg v)) ∨
    (a = .reset ∧ t = s.resetEngine) := by
  cases a with
  | command w => exact .inl ⟨w, rfl, h⟩
  | write i e =>
    simp only [hostAct, hostWrite] at h
    split at h
    · next hi => cases h; exact .inr (.inl ⟨i, e, rfl, hi, rfl⟩)
    · cases h
  | read sp i =>
    simp only [hostAct, hostRead] at h
    split at h
    · split at h
      · next e he => cases h; exact .inr (.inr (.inl ⟨sp, i, e, rfl, he, rfl⟩))
      · cases h
    · cases h
  | readReg n =>
    simp only [hostAct, hostReadReg] at h
    split at h
    · next v hv => cases h; exact .inr (.inr (.inr (.inl ⟨n, v, rfl, hv, rfl⟩)))
    · cases h
  | reset => cases h; exact .inr (.inr (.inr (.inr ⟨rfl, rfl⟩)))

end Sys2Proof.Machine
end

