-- ==== Sys2Proof/Tests/Slice0.lean ====
section
/-! SUPPORT. The model's own tests. Expected values are those of 95_test_vectors (the vector or program is named at each
test) and of the encodings of 30_encoding R92, R94, written out by hand; the parameters are the test configuration of
95 section 2. The second half shows, for every obligation with hypotheses, states and operands that meet them. -/

namespace Sys2Proof.Machine.Tests

/-! ## The test configuration of 95 section 2 -/

def rgb (r g b : Nat) : Rgb := { r := BitVec.ofNat 8 r, g := BitVec.ofNat 8 g, b := BitVec.ofNat 8 b }

def px (r g b a : Nat) : Pixel :=
  { r := BitVec.ofNat 8 r, g := BitVec.ofNat 8 g, b := BitVec.ofNat 8 b, a := BitVec.ofNat 8 a }

/-- `THW`, in three rows of nine (G2: r, g, b levels 0, 128, 255). -/
def thw : Vector Rgb 27 :=
  #v[rgb 0 0 0, rgb 0 0 128, rgb 0 0 255, rgb 128 0 0, rgb 128 0 128,
    rgb 128 0 255, rgb 255 0 0, rgb 255 0 128, rgb 255 0 255, rgb 0 128 0,
    rgb 0 128 128, rgb 0 128 255, rgb 128 128 0, rgb 128 128 128, rgb 128 128 255,
    rgb 255 128 0, rgb 255 128 128, rgb 255 128 255, rgb 0 255 0, rgb 0 255 128,
    rgb 0 255 255, rgb 128 255 0, rgb 128 255 128, rgb 128 255 255, rgb 255 255 0,
    rgb 255 255 128, rgb 255 255 255]

/-- `TPAL` and `THW` with capacities 64 and 32 (stored as predecessors). -/
def tcfg : Params where
  pal0 := #v[rgb 0 0 0, rgb 0 0 128, rgb 0 0 255, rgb 128 0 0,
    rgb 128 0 128, rgb 128 0 255, rgb 255 0 0, rgb 255 0 128,
    rgb 255 0 255, rgb 0 128 0, rgb 0 128 128, rgb 0 128 255,
    rgb 128 128 0, rgb 128 128 128, rgb 128 128 255, rgb 255 128 0]
  pal1 := #v[rgb 0 0 128, rgb 255 255 0, rgb 0 255 255, rgb 255 0 0]
  pal2 := #v[rgb 0 0 0, rgb 255 255 255]
  hwcol := thw
  capGridPred := 63
  capDatPred := 31
  dupPolicy := .firstWins

/-- The elements `vs` from element 0. -/
def cells {α : Type} (vs : List α) : Buffer α := memWriteBlock [] vs

/-- The reset state with a grid size, a length and buffers. -/
def grid (w h len : Nat) (pix : List Pixel) (idx dat : List Nat) : State :=
  { State.reset with
    width := BitVec.ofNat 16 w
    height := BitVec.ofNat 16 h
    len := BitVec.ofNat 24 len
    mem :=
      { pix := cells pix, idx := cells (idx.map (BitVec.ofNat 4)), dat := cells (dat.map (BitVec.ofNat 8)),
        rgb := [] } }

/-- The state a result carries, if it is a next state. -/
def after : Result → Option State
  | .next t => some t
  | .fault _ => none
  | .refused _ => none

/-- What a test looks at: IDX, DAT, LEN, HEIGHT. -/
def shown (r : Result) : Option (List Nat × List Nat × Nat × Nat) :=
  (after r).map fun t =>
    (t.mem.idx.map fun c => c.2.toNat, t.mem.dat.map fun c => c.2.toNat, t.len.toNat, t.height.toNat)

/-- What an error or a warning leaves: LASTERR, ERRCNT, DIAG, FATAL, WARNED. -/
def record (r : Result) : Option (Nat × Nat × List Nat × Bool × Bool) :=
  (after r).map fun t => (t.lastErr.toNat, t.errCnt.toNat, t.diag.map BitVec.toNat, t.fatal, t.warned)

/-! ## Decoding: words written out from R92 and R94; one for each constructor -/

theorem test_decode_setw : decode 0b00010000000000000000000011001000 = .ok (.setw 200) := by decide
theorem test_decode_seth : decode 0b00100000000000001111111111111111 = .ok (.seth 65535) := by decide
theorem test_decode_setlen : decode 0b00110000100000000000000000000001 = .ok (.setlen 8388609) := by decide
theorem test_decode_setti : decode 0b01000000000000000000000000010011 = .ok (.setti true 3) := by decide
theorem test_decode_setti_off : decode 0b01000000000000000000000000000111 = .ok (.setti false 7) := by decide
theorem test_decode_setbg : decode 0b01010000000000000000000000101101 = .ok (.setbg true 13) := by decide
theorem test_decode_setink : decode 0b01100000000000000000001000011011 = .ok (.setink 2 27) := by decide
theorem test_decode_clrink : decode 0b01110000000000000000000000000000 = .ok (.clrink) := by decide
theorem test_decode_match0 : decode 0b10000000000000000000000000000000 = .ok (.match0) := by decide
theorem test_decode_match1 : decode 0b10000100000000000000000000000000 = .ok (.match1) := by decide
theorem test_decode_match2 : decode 0b10001000000000000000000000000000 = .ok (.match2) := by decide
theorem test_decode_match3 : decode 0b10001100000000000000000000000000 = .ok (.match3) := by decide
theorem test_decode_pack0 : decode 0b10010000000000000000000000000000 = .ok (.pack0) := by decide
theorem test_decode_pack1 : decode 0b10010100000000000000000000000000 = .ok (.pack1) := by decide
theorem test_decode_pack2 : decode 0b10011000000000000000000000000000 = .ok (.pack2) := by decide
theorem test_decode_pack3 : decode 0b10011100000000000000000000000000 = .ok (.pack3) := by decide
theorem test_decode_unpack0 : decode 0b10100000000000000000000000000000 = .ok (.unpack0) := by decide
theorem test_decode_unpack1 : decode 0b10100100000000000000000000000000 = .ok (.unpack1) := by decide
theorem test_decode_unpack2 : decode 0b10101000000000000000000000000000 = .ok (.unpack2) := by decide
theorem test_decode_unpack3 : decode 0b10101100000000000000000000000000 = .ok (.unpack3) := by decide
theorem test_decode_resolve : decode 0b10110000000000000000000000000000 = .ok (.resolve) := by decide

/-- Every word of 95 section 7 is refused by the decoder and by R96's table. -/
theorem test_illegal_words :
    ([0x00000000, 0xFFFFFFFF, 0xC0000000, 0xD0000000, 0xE0000000, 0xF0000000,
        0x00000001, 0x10010000, 0x14000003, 0x31000000, 0x40000020, 0x50000040,
        0x60001000, 0x60000120, 0x70000001, 0xB4000000, 0xBC000000, 0x81000000,
        0x80000001, 0x8C000001] : List Word).all
      (fun w => (decode w).toOption.isNone && !legalWord w) = true := by decide

theorem test_reject_reserved_op : decode 0xC0000000 = .error (.reservedOp 12) := by decide

theorem test_reject_must_be_zero : decode 0x8C000001 = .error (.mustBeZero 8) := by decide

/-- A legal word of every OP satisfies R96, M = 3 included (R97). -/
theorem test_legal_words :
    ([0x1000FFFF, 0x20000000, 0x30FFFFFF, 0x4000001F, 0x5000003F, 0x60000F1F, 0x70000000, 0x8C000000, 0x98000000,
        0xA4000000, 0xB0000000] : List Word).all legalWord = true := by decide

theorem test_decode_table_word : decodeTableWord 32 0x60000F1A = some (.setink 15 26) := by decide

/-! ## WellFormed -/

/-- The ill-formed lines: one for each range of R100 and R101. -/
theorem test_ill_formed_lines :
    [AsmLine.setw 65536, .seth 65536, .setlen 16777216, .setti 16, .setbg 32, .setink 16 0, .setink 0 32,
        .matchMode 4, .packMode 4, .unpackMode 4, .inkPair 16 0, .inkPair 0 32, .encodeMode 4, .decodeMode 4].all
      (fun l => !l.wellFormed && (assemble l).isNone) = true := by decide

/-- Each palette (R8): the test configuration's entries are distinct, and equal entries in any one palette are
refused. -/
theorem test_palettes_distinct :
    tcfg.palettesDistinct = true ∧
      Params.palettesDistinct { tcfg with pal0 := Vector.replicate 16 (rgb 1 2 3) } = false ∧
      Params.palettesDistinct { tcfg with pal1 := Vector.replicate 4 (rgb 1 2 3) } = false ∧
      Params.palettesDistinct { tcfg with pal2 := Vector.replicate 2 (rgb 1 2 3) } = false := by decide

/-- The assembler's text (R100, R101): lines of 95 section 8, and what it refuses. -/
theorem test_assembler_text :
    assembleText "SETTI 3".toList = some [0x40000013] ∧ assembleText "setw 0x3 ; width".toList = some [0x10000003] ∧
      assembleText "INK 1,24".toList = some [0x60000118] ∧
      assembleText "DECODE.1".toList = some [0xA4000000, 0xB0000000] ∧
      assembleText "SETTI off".toList = some [0x40000000] ∧ assembleText "SETW 65536".toList = none ∧
      assembleText "; nothing".toList = some [] := by decide

/-! ## The matcher (95 section 3) -/

/-- Vectors 3.1, 3.2 (a tie, the lower index wins) and 3.13 of mode 1, 3.3 and 3.4 of mode 2. -/
theorem test_nearest_ties :
    nearest tcfg .m1 (rgb 250 10 10) = (3, 225) ∧ nearest tcfg .m1 (rgb 128 255 128) = (1, 32513) ∧
      nearest tcfg .m1 (rgb 255 255 255) = (1, 65025) ∧ nearest tcfg .m2 (rgb 127 127 127) = (0, 48387) ∧
      nearest tcfg .m2 (rgb 128 128 128) = (1, 48387) := by decide

/-- Vectors 3.9, 3.10, 3.11 (an eight-way tie) and 3.18 of mode 0. -/
theorem test_nearest_mode0 :
    nearest tcfg .m0 (rgb 130 120 140) = (13, 212) ∧ nearest tcfg .m0 (rgb 255 255 255) = (14, 32258) ∧
      nearest tcfg .m0 (rgb 64 64 64) = (0, 12288) ∧ nearest tcfg .m0 (rgb 200 100 50) = (15, 6309) := by decide

/-- Vectors 3.5 to 3.8 and 3.19: the override needs alpha 0 and V = 1, and its pen is not checked. -/
theorem test_transparent_ink :
    matchPx tcfg .m0 { v := true, idx := 3 } (px 255 0 128 0) = (3, false) ∧
      matchPx tcfg .m0 { v := false, idx := 3 } (px 255 0 128 0) = (7, false) ∧
      matchPx tcfg .m0 { v := true, idx := 3 } (px 255 0 128 1) = (7, false) ∧
      matchPx tcfg .m1 { v := true, idx := 7 } (px 0 0 0 0) = (7, false) := by decide

/-- P1 after command 4: MATCH.0 with the override and one inexact pixel. -/
theorem test_match0_program1 :
    (after (matchCommand tcfg .m0
      { grid 3 2 0 [px 0 0 128 255, px 255 0 0 255, px 10 10 10 0, px 128 128 128 255, px 130 120 140 255,
          px 0 0 0 255] [] [] with tink := { v := true, idx := 3 } })).map
      (fun t => (t.mem.idx.map fun c => c.2.toNat, t.warned, t.diag)) =
    some ([1, 6, 3, 13, 13, 0], true, [0x10]) := by decide

/-- P5, command 4: MATCH.1 with WARNED already set emits nothing. -/
theorem test_match1_silent_after_warning :
    (after (matchCommand tcfg .m1
      { grid 2 1 0 [px 250 10 10 255, px 128 255 128 255] [] [] with warned := true, diag := [0x10] })).map
      (fun t => (t.mem.idx.map fun c => c.2.toNat, t.warned, t.diag)) = some ([3, 1], true, [0x10]) := by decide

/-- P5, command 3: MATCH.2, the first out-of-palette event. -/
theorem test_match2_first_warning :
    record (matchCommand tcfg .m2 (grid 2 1 0 [px 1 1 1 255, px 0 0 0 255] [] [])) =
      some (0, 0, [0x10], false, true) := by decide

/-! ## The packer and the unpacker (95 sections 4 and 5) -/

/-- Vectors 4.1, 4.2 (mode 0), 4.7, 4.9 (mode 1), 4.10 (mode 2). -/
theorem test_pack_byte :
    packByte .m0 (fun k => if k = 0 then 3 else 5) = 0xD8 ∧ packByte .m0 (fun k => if k = 0 then 10 else 5) = 0x5A ∧
      packByte .m1 (fun k => BitVec.ofNat 4 k) = 0x53 ∧ packByte .m1 (fun k => if k < 2 then 1 else 0) = 0xC0 ∧
      packByte .m2 (fun k => if k = 0 ∨ k = 2 ∨ k = 3 ∨ k = 6 then 1 else 0) = 0xB2 := by decide

/-- Vectors 4.22 and 4.24: one byte in the three modes. -/
theorem test_unpack_byte :
    (List.range 2).map (unpackByte .m0 0x6D) = [6, 11] ∧ (List.range 4).map (unpackByte .m1 0x6D) = [2, 3, 1, 2] ∧
      (List.range 8).map (unpackByte .m2 0x6D) = [0, 1, 1, 0, 1, 1, 0, 1] ∧
      (List.range 2).map (unpackByte .m0 0x1B) = [10, 12] ∧ (List.range 4).map (unpackByte .m1 0x1B) = [2, 0, 2, 3] ∧
      (List.range 8).map (unpackByte .m2 0x1B) = [0, 0, 0, 1, 1, 0, 1, 1] := by decide

/-- Vector 5.2. -/
theorem test_pack0_padding :
    shown (packCommand tcfg .m0 (grid 3 2 0 [] [1, 2, 3, 4, 5, 6] [])) =
      some ([1, 2, 3, 4, 5, 6], [0x84, 0x88, 0x70, 0x28], 4, 2) := by decide

/-- Vector 5.3. -/
theorem test_pack1_padding :
    (shown (packCommand tcfg .m1 (grid 5 2 0 [] [0, 1, 2, 3, 3, 3, 2, 1, 0, 1] []))).map (·.2) =
      some ([0x53, 0x88, 0xAC, 0x80], 4, 2) := by decide

/-- Vector 5.11. -/
theorem test_pack1_index_error :
    record (packCommand tcfg .m1 (grid 2 1 0 [] [7, 0] [])) = some (6, 1, [0x06], false, false) := by decide

/-- Vectors 5.4 and 5.15: padding, and a grid too large though its bytes would fit. -/
theorem test_pack2 :
    (shown (packCommand tcfg .m2 (grid 10 1 0 [] [1, 0, 1, 1, 0, 0, 1, 0, 1, 1] []))).map (·.2) =
        some ([0xB2, 0xC0], 2, 1) ∧
      record (packCommand tcfg .m2 (grid 9 8 0 [] [] [])) = some (5, 1, [0x05], false, false) := by decide

/-- Vector 5.14: the grid fits, its bytes do not. -/
theorem test_pack0_capacity :
    record (packCommand tcfg .m0 (grid 1 33 0 [] [] [])) = some (5, 1, [0x05], false, false) := by decide

/-- Vectors 5.19 (a pad slot is ignored) and 5.28 (E_CAPACITY comes before E_MALFORMED). -/
theorem test_unpack0 :
    shown (unpackCommand tcfg .m0 (grid 3 0 2 [] [] [0xA5, 0xAB])) = some ([5, 10, 15], [0xA5, 0xAB], 2, 1) ∧
      record (unpackCommand tcfg .m0 (grid 0 0 33 [] [] [])) = some (5, 1, [0x05], false, false) := by decide

/-- Vector 5.17. -/
theorem test_unpack1 :
    shown (unpackCommand tcfg .m1 (grid 5 0 4 [] [] [0x53, 0x80, 0xAC, 0x40])) =
      some ([0, 1, 2, 3, 1, 3, 2, 1, 0, 0], [0x53, 0x80, 0xAC, 0x40], 4, 2) := by decide

/-- Vector 5.24. -/
theorem test_unpack1_malformed :
    record (unpackCommand tcfg .m1 (grid 5 0 3 [] [] [])) = some (2, 1, [0x02], false, false) := by decide

/-- Vectors 5.20 and 5.29. -/
theorem test_unpack2 :
    (shown (unpackCommand tcfg .m2 (grid 10 0 2 [] [] [0xB2, 0xFF]))).map (·.1) =
        some [1, 0, 1, 1, 0, 0, 1, 0, 1, 1] ∧
      record (unpackCommand tcfg .m2 (grid 64 0 16 [] [] [])) = some (5, 1, [0x05], false, false) := by decide

/-! ## RESOLVE and the configuration commands (95 section 6) -/

/-- `s` with the entries 0 to 1 and 1 to 24 of vector 6.1. -/
def inks (s : State) : State :=
  (s.setInkEntry 0 { v := true, ink := 1 }).setInkEntry 1 { v := true, ink := 24 }

/-- Vector 6.1. -/
theorem test_resolve_placeholder :
    (after (resolveCommand tcfg (inks (grid 3 1 0 [] [0, 1, 2] [])))).map
      (fun t => (t.mem.rgb.map fun c => c.2, t.diag)) =
    some ([rgb 0 0 128, rgb 255 255 0, rgb 255 0 255], [0x11]) := by decide

/-- Vectors 6.4 (the background ink) and 6.5 (no pen mapped, no pen at all). -/
theorem test_resolve_background :
    (after (resolveCommand tcfg { inks (grid 3 1 0 [] [0, 1, 2] []) with bgink := { v := true, ink := 6 } })).map
        (fun t => (t.mem.rgb.map fun c => c.2, t.diag)) =
      some ([rgb 0 0 128, rgb 255 255 0, rgb 255 0 0], []) ∧
      record (resolveCommand tcfg (grid 0 5 0 [] [] [])) = some (0, 0, [0x11], false, false) := by decide

/-- Vectors 6.11 and 6.13 and SETH: the widest immediates. -/
theorem test_set_sizes :
    (after (execSetw 65535 .reset)).map (readRegister · 3) = some (some 0xFFFF) ∧
      (after (execSeth 40000 .reset)).map (readRegister · 4) = some (some 40000) ∧
      (after (execSetlen 16777215 .reset)).map (readRegister · 5) = some (some 0xFFFFFF) := by decide

/-- Vectors 6.14 and 6.15. -/
theorem test_setti :
    (after (execSetti true 3 .reset)).map (readRegister · 6) = some (some 0x13) ∧
      (after (execSetti false 7 .reset)).map (readRegister · 6) = some (some 0x07) := by decide

/-- Vectors 6.16 to 6.18. -/
theorem test_setbg :
    (after (execSetbg true 13 .reset)).map (readRegister · 7) = some (some 0x2D) ∧
      record (execSetbg true 27 .reset) = some (0, 0, [0x12], false, false) ∧
      (after (execSetbg false 31 { State.reset with bgink := { v := true, ink := 13 } })).map
        (readRegister · 7) = some (some 0) := by decide

/-- Vectors 6.19 and 6.20, a duplicate under both policies. -/
theorem test_setink_duplicate :
    (after (setInkCommand .firstWins 1 24 .reset)).map (readRegister · 17) = some (some 0x38) ∧
      (after (setInkCommand .firstWins 1 6 (inks .reset))).map (fun t => (readRegister t 17, t.diag)) =
        some (some 0x38, [0x13]) ∧
      (after (setInkCommand .lastWins 1 6 (inks .reset))).map (fun t => (readRegister t 17, t.diag)) =
        some (some 0x26, [0x13]) := by decide

/-- Vectors 6.23 and 6.26: the last register, and the ink test before the duplicate test. -/
theorem test_setink_skip :
    (after (setInkCommand .lastWins 15 26 .reset)).map (readRegister · 31) = some (some 0x3A) ∧
      (after (setInkCommand .lastWins 1 27 (inks .reset))).map (fun t => (readRegister t 17, t.diag)) =
        some (some 0x38, [0x12]) := by decide

/-- Vector 6.25. -/
theorem test_clrink :
    (after (execClrink { inks .reset with bgink := { v := true, ink := 2 } })).map
        (fun t => ((List.range 16).map fun k => readRegister t (16 + k), readRegister t 7)) =
      some (List.replicate 16 (some 0), some 0x22) := by decide

/-! ## Steps -/

/-- P4, command 3: PACK.3 as the host's next action. -/
theorem test_step_pack3 :
    record (step ((grid 2 1 0 [] [1, 2] []).withFetchWord 32 0x9C000000)) = some (1, 1, [0x01], true, false) := by
  decide

/-- 95 section 7: MATCH.3 and UNPACK.3 are E_MODE whatever the operands. -/
theorem test_mode_errors :
    record (execMatch3 .reset) = some (1, 1, [0x01], true, false) ∧
      record (execUnpack3 (grid 0 0 33 [] [] [])) = some (1, 1, [0x01], true, false) := by decide

/-- P4, commands 4 to 6: ignored while FATAL is set, the illegal word too. -/
theorem test_step_ignored_while_fatal :
    step (State.withFetchWord { State.reset with fatal := true } 32 0x00000000) =
      .next { State.reset with fatal := true } := by rfl

/-- The first step after reset runs the word placed for it: an UNPACK finds WIDTH = 0. -/
theorem test_step_first_word :
    step (State.reset.withFetchWord 32 0x1000002A) = .next { State.reset with width := 42 } ∧
      step (State.reset.withFetchWord 32 0xA0000000) =
        .next { State.reset with lastErr := 2, errCnt := 1, diag := [0x02] } := ⟨rfl, rfl⟩

/-- A grid of no pixel: MATCH.0, PACK.1 and RESOLVE complete right after reset, whatever the parameters. -/
theorem test_step_empty_grid :
    step (State.reset.withFetchWord 32 0x80000000) = .next State.reset ∧
      step (State.reset.withFetchWord 32 0x94000000) = .next State.reset ∧
      step (State.reset.withFetchWord 32 0xB0000000) = .next { State.reset with diag := [0x11] } := ⟨rfl, rfl, rfl⟩

/-- A host access past every admitted capacity is refused, a register above 31 too (U14). -/
theorem test_port_refusals :
    step { State.reset with hostQueue := [.readReg 32] } = .refused (.noSuchRegister 32) ∧
      readRegister State.reset 12 = some 0 := ⟨rfl, rfl⟩

/-! ## Witnesses: states and operands that meet the hypotheses of each obligation, clause by clause

The engine's own capacities are known only to lie in the ranges of R8, so a witness for a state that fits uses one
element, and a witness for one that does not uses the largest grid. -/

/-- One pixel, one pen, one byte, all written. -/
def one : State := grid 1 1 1 [px 9 9 9 255] [1] [0x80]

/-- The largest grid the registers can name. -/
def huge : State := grid 65535 65535 16777215 [] [] []

/-- `s` with one action of the host. -/
def doing (a : HostAction) (s : State := .reset) : State := s.setHostQueue [a]

theorem huge_gridSize (cfg : Params) : cfg.capGrid < huge.gridSize := by
  have := capGrid_le cfg
  have : huge.gridSize = 4294836225 := by decide
  omega

theorem huge_packedSize (cfg : Params) (m : Mode) : cfg.capDat < huge.packedSize m := by
  have := capDat_lt cfg
  have : 2 ^ 24 ≤ huge.packedSize m := by cases m <;> decide
  omega

theorem one_gridSize (cfg : Params) : one.gridSize ≤ cfg.capGrid := by
  have := capGrid_pos cfg
  have : one.gridSize = 1 := by decide
  omega

theorem one_packedSize (cfg : Params) (m : Mode) : one.packedSize m ≤ cfg.capDat := by
  have := capDat_pos cfg
  have : one.packedSize m = 1 := by cases m <;> decide
  omega

theorem one_written :
    Written one.mem.pix one.gridSize ∧ Written one.mem.idx one.gridSize ∧ Written one.mem.dat one.len.toNat := by
  have h1 : one.gridSize = 1 := by decide
  have h2 : one.len.toNat = 1 := by decide
  refine ⟨?_, ?_, ?_⟩ <;> intro i hi <;> obtain rfl : i = 0 := by omega
  · exact ⟨px 9 9 9 255, by decide⟩
  · exact ⟨1, by decide⟩
  · exact ⟨0x80, by decide⟩

theorem one_pens (m : Mode) : PensOfMode m one.mem.idx one.gridSize := by
  have h1 : one.gridSize = 1 := by decide
  intro i hi
  obtain rfl : i = 0 := by omega
  exact ⟨1, by decide, by cases m <;> decide⟩

theorem one_block (cfg : Params) (m : Mode) :
    one.len.toNat ≤ cfg.capDat ∧ one.width ≠ 0 ∧ one.len.toNat % bytesPerRow m one.width.toNat = 0 ∧
      one.derivedHeight m ≤ 65535 ∧ one.width.toNat * one.derivedHeight m ≤ cfg.capGrid := by
  have := capDat_pos cfg
  have := capGrid_pos cfg
  have h1 : one.len.toNat = 1 := by decide
  have h2 : one.width.toNat * one.derivedHeight m = 1 := by cases m <;> decide
  refine ⟨by omega, by decide, by cases m <;> decide, by cases m <;> decide, by omega⟩

theorem reset_inks : State.reset.storedInksValid := by constructor <;> decide

theorem one_inks : one.storedInksValid := by constructor <;> decide

/-! ### Encoding and the command port -/

theorem witness_EncodeOfDecodeIsWord : decode 0x60000F1F = .ok (.setink 15 31) := by decide

theorem witness_IllegalWordsRaiseIllegal :
    State.reset.fatal = false ∧ (doing (.command 0xBC000000)).hostQueue = .command 0xBC000000 :: [] ∧
      legalWord 0xBC000000 = false := by decide

theorem witness_StepRunsDecodedCommand :
    (doing (.command 0x8C000000)).fatal = false ∧
      (doing (.command 0x8C000000)).hostQueue = .command 0x8C000000 :: [] ∧ decode 0x8C000000 = .ok .match3 := by
  decide

/-- The state after an E_MODE, with one action of the host pending. -/
def fatalDoing (a : HostAction) : State := doing a { one with fatal := true }

theorem witness_FatalIgnoresEveryCommand :
    (∀ a, (fatalDoing a).fatal = true ∧ (fatalDoing a).hostQueue = a :: []) ∧
      readRegister (fatalDoing (.readReg 0)) 0 = some 1 ∧ readRegister (fatalDoing (.readReg 31)) 31 = some 0 ∧
      0 < capacity Config.params .idx ∧ memReadElem (fatalDoing (.read .idx 0)).mem .idx 0 = some (.idx 1) ∧
      0 < capacity Config.params (Elem.rgb (rgb 1 2 3)).space :=
  ⟨fun _ => ⟨rfl, rfl⟩, by decide, by decide, capGrid_pos _, by decide, capGrid_pos _⟩

theorem witness_StepUsesUpOneAction :
    (doing (.command 0x1000002A)).hostQueue = .command 0x1000002A :: [] ∧
      step (doing (.command 0x1000002A)) = .next { State.reset with width := 42 } := ⟨rfl, rfl⟩

theorem witness_EngineWaitsWithoutAction : State.reset.hostQueue = [] := rfl

/-! ### Errors, FATAL and reset -/

theorem witness_RaisedErrorIsPrecise :
    exec .unpack2 .reset = .next (State.reset.raised .malformed) ∧ (State.reset.raised .malformed).lastErr ≠ 0 :=
  ⟨rfl, by decide⟩

/-- ERRCNT at its bound, the one value where it does not count on (R32). -/
theorem test_error_count_saturates :
    countError 0xFFFFFFFF = 0xFFFFFFFF ∧ countError 0xFFFFFFFE = 0xFFFFFFFF := by decide

theorem witness_ModeThreeIsFatal : one.fatal = false := rfl

theorem witness_ResetActionLeavesResetValues : (fatalDoing .reset).hostQueue = .reset :: [] := rfl

theorem witness_OnlyResetClears :
    step (fatalDoing (.readReg 1)) = .next { one with fatal := true, replies := [.reg 0] } ∧
      (fatalDoing (.readReg 1)).hostQueue.head? ≠ some .reset ∧ (fatalDoing (.readReg 1)).fatal = true ∧
      (doing (.readReg 1) { one with warned := true }).warned = true := ⟨rfl, by decide, rfl, rfl⟩

theorem witness_RecordsDoNotInfluenceCommands_next :
    one.sameButRecords (one.raised .index) ∧ exec (.setw 2) one = .next (one.setWidth 2) := ⟨rfl, rfl⟩

theorem witness_RecordsDoNotInfluenceCommands_fault :
    (grid 1 1 0 [] [] []).sameButRecords ((grid 1 1 0 [] [] []).raised .index) ∧
      exec .resolve (grid 1 1 0 [] [] []) = .fault (.unwrittenElement .idx 0) := by
  refine ⟨rfl, ?_⟩
  have h : ¬ (grid 1 1 0 [] [] []).gridSize > Config.params.capGrid := by
    have := capGrid_pos Config.params
    have : (grid 1 1 0 [] [] []).gridSize = 1 := by decide
    omega
  rw [exec_resolve, resolveCommand, if_neg h]
  rfl

/-! ### The invariants: a good state and a step of it -/

/-- A state after a warning and an error, with a command pending. -/
def busy : State :=
  doing (.command 0x1000002A)
    { inks one with diag := [0x10, 0x06], warned := true, errCnt := 1, lastErr := 6, bgink := { v := true, ink := 26 } }

theorem witness_StepKeeps_next :
    step busy = .next { busy with width := 42, lastErr := 0, hostQueue := [] } := rfl

theorem witness_StepKeepsMemoryGood : busy.memoryGood Config.params := by
  have := capGrid_pos Config.params
  have := capDat_pos Config.params
  have hp : busy.mem.pix = [(0, px 9 9 9 255)] := by decide
  have hi : busy.mem.idx = [(0, 1)] := by decide
  have hd : busy.mem.dat = [(0, 0x80)] := by decide
  have hr : busy.mem.rgb = [] := by decide
  refine ⟨by decide, ?_, ?_, ?_, ?_⟩
  · rw [hp]; intro c hc; simp only [List.mem_singleton] at hc; subst hc; omega
  · rw [hi]; intro c hc; simp only [List.mem_singleton] at hc; subst hc; omega
  · rw [hd]; intro c hc; simp only [List.mem_singleton] at hc; subst hc; omega
  · rw [hr]; intro c hc; simp at hc

theorem witness_StepKeepsStoredInksValid : busy.storedInksValid := by constructor <;> decide

theorem witness_StepKeepsOneShotWarning : busy.oneShot := by unfold State.oneShot; decide

theorem witness_StepKeepsErrorCount : busy.errorsCounted := by unfold State.errorsCounted; decide

theorem witness_StepKeepsFatalRecord : busy.fatalRecorded := by unfold State.fatalRecorded; decide

theorem witness_StepKeepsCodesKnown : busy.codesKnown := by
  refine ⟨.inr ⟨.index, by decide⟩, fun c hc => ?_⟩
  have : busy.diag = [0x10, 0x06] := rfl
  simp only [this, List.mem_cons, List.not_mem_nil, or_false] at hc
  rcases hc with rfl | rfl
  · exact .inr ⟨.palette, by decide⟩
  · exact .inl ⟨.index, by decide⟩

theorem witness_AllowedActionsAreCarriedOut_command :
    one.storedInksValid ∧ (doing (.command 0x80000000) one).hostQueue = .command 0x80000000 :: [] ∧
      (doing (.command 0x80000000) one).actionAllowed Config.params (.command 0x80000000) := by
  refine ⟨one_inks, rfl, fun i hi => ?_⟩
  have : decode 0x80000000 = .ok .match0 := by decide
  rw [this] at hi; cases hi
  exact one_written.1

theorem witness_AllowedActionsAreCarriedOut_host :
    one.actionAllowed Config.params (.write 0 (.dat 7)) ∧ one.actionAllowed Config.params (.read .pix 0) ∧
      one.actionAllowed Config.params (.readReg 31) ∧ one.actionAllowed Config.params .reset :=
  ⟨capDat_pos _, ⟨capGrid_pos _, by decide⟩, show 31 < 32 by decide, trivial⟩

/-- Some pixel is no entry of the engine's `PAL[2]`: of three colours two are equal to no one of two entries. -/
theorem exists_inexact_pixel (tink : TransparentInk) :
    ∃ p : Pixel, p.a = 255 ∧ (matchPx Config.params .m2 tink p).2 = true := by
  have sq : ∀ x y : Channel, sqDiff x y = 0 → x = y := by
    intro x y h
    unfold sqDiff at h
    have h2 : ((x.toNat : Int) - y.toNat) * ((x.toNat : Int) - y.toNat) = 0 :=
      le_antisymm (Int.toNat_eq_zero.1 h) (mul_self_nonneg _)
    have h3 := mul_self_eq_zero.1 h2
    exact BitVec.eq_of_toNat_eq (by omega)
  have far : ∀ c q : Rgb, c.r ≠ q.r → dist2 c q ≠ 0 := by
    intro c q hne h
    refine hne (sq _ _ ?_)
    unfold dist2 at h
    omega
  have near : ∀ (p q c : Rgb), c.r ≠ p.r → c.r ≠ q.r → (nearestIn c [p, q]).2 ≠ 0 := by
    intro p q c h1 h2
    simp only [nearestIn, nearestLoop]
    split
    · exact far _ _ h2
    · exact far _ _ h1
  have pal : palette Config.params .m2 = [Config.params.pal2[0], Config.params.pal2[1]] := by
    unfold palette
    apply List.ext_getElem
    · simp
    · intro i h1 h2
      simp only [List.length_cons, List.length_nil] at h2
      rcases i with _ | _ | i
      · rfl
      · rfl
      · omega
  have pick : ∃ r : Channel, r ≠ Config.params.pal2[0].r ∧ r ≠ Config.params.pal2[1].r := by
    generalize Config.params.pal2[0].r = a
    generalize Config.params.pal2[1].r = b
    by_contra h
    push Not at h
    by_cases ha : 0 = a
    · have h1 := h 1 (by rw [← ha]; decide)
      have h2 := h 2 (by rw [← ha]; decide)
      exact absurd (h1.trans h2.symm) (by decide)
    · by_cases ha1 : 1 = a
      · exact absurd ((h 0 ha).trans (h 2 (by rw [← ha1]; decide)).symm) (by decide)
      · exact absurd ((h 0 ha).trans (h 1 ha1).symm) (by decide)
  obtain ⟨r, h1, h2⟩ := pick
  refine ⟨{ r := r, g := 0, b := 0, a := 255 }, rfl, ?_⟩
  unfold matchPx
  rw [if_neg (fun h => absurd h.1 (show ¬ (255 : Channel) = 0 by decide))]
  simp only [decide_eq_true_eq]
  unfold nearest
  rw [pal]
  exact near _ _ _ h1 h2

/-- One pixel that is no entry of `PAL[2]`. -/
def inexactOne (p : Pixel) : State := { one with mem := { one.mem with pix := [(0, p)] } }

theorem inexactOne_read (p : Pixel) :
    (inexactOne p).gridSize = 1 ∧ memRead (inexactOne p).mem.pix 0 = some p := ⟨rfl, rfl⟩

/-- Each clause of the write table: a command of the kind named does change the state named. -/
theorem witness_CommandsWriteOnlyTheirState_registers :
    (exec (.setw 2) one = .next (one.setWidth 2) ∧ (one.setWidth 2).width ≠ one.width) ∧
      (exec (.seth 2) one = .next (one.setHeight 2) ∧ (one.setHeight 2).height ≠ one.height) ∧
      (exec (.setlen 2) one = .next (one.setLen 2) ∧ (one.setLen 2).len ≠ one.len) ∧
      (exec (.setti true 5) one = .next (one.setTink { v := true, idx := 5 }) ∧
        (one.setTink { v := true, idx := 5 }).tink ≠ one.tink) ∧
      (exec (.setbg true 5) one = .next (one.setBgink { v := true, ink := 5 }) ∧
        (one.setBgink { v := true, ink := 5 }).bgink ≠ one.bgink) ∧
      (exec (.setink 3 5) one = .next (one.setInkEntry 3 { v := true, ink := 5 }) ∧
        (one.setInkEntry 3 { v := true, ink := 5 }).inkMap ≠ one.inkMap) ∧
      exec .pack3 one = .next (one.raised .mode) ∧ (one.raised .mode).fatal ≠ one.fatal ∧ one.lastErr = 0 :=
  ⟨⟨rfl, by decide⟩, ⟨rfl, by decide⟩, ⟨rfl, by decide⟩, ⟨rfl, by decide⟩, ⟨rfl, by decide⟩, ⟨rfl, by decide⟩, rfl,
    by decide, rfl⟩

/-- `one` before its PACK, before its UNPACK and before a MATCH of the pixel `p`. -/
def unpackedOne : State := { one with len := 0, mem := { one.mem with dat := [] } }

def packedOne : State := { one with height := 0, mem := { one.mem with idx := [] } }

def pixelOne (p : Pixel) : State := { one with mem := { one.mem with pix := [(0, p)], idx := [] } }

theorem witness_CommandsWriteOnlyTheirState_pack :
    ∃ t, exec .pack2 unpackedOne = .next t ∧ t.mem.dat ≠ unpackedOne.mem.dat ∧ t.len ≠ unpackedOne.len :=
  ⟨_, packCommand_of_pens (cfg := Config.params) (s := unpackedOne) (ps := [1]) (one_gridSize _) (one_packedSize _ .m2) (by decide), by decide, by decide⟩

theorem witness_CommandsWriteOnlyTheirState_unpack :
    ∃ t, exec .unpack2 packedOne = .next t ∧ t.mem.idx ≠ packedOne.mem.idx ∧ t.height ≠ packedOne.height :=
  have h := one_block Config.params .m2
  ⟨_, unpackCommand_of_read (cfg := Config.params) (s := packedOne) (bytes := [0x80]) h.1 h.2.1 h.2.2.1 h.2.2.2.1 h.2.2.2.2 rfl, by decide, by decide⟩

theorem witness_CommandsWriteOnlyTheirState_resolve :
    ∃ t, exec .resolve one = .next t ∧ t.mem.rgb ≠ one.mem.rgb :=
  ⟨_, resolveCommand_of_read (cfg := Config.params) (s := one) (qs := [1]) (cs := [(unknownRgb, true)]) (one_gridSize _) rfl rfl, by decide⟩

theorem witness_CommandsWriteOnlyTheirState_match :
    ∃ p t, exec .match2 (pixelOne p) = .next t ∧ t.warned ≠ (pixelOne p).warned ∧
      t.mem.idx ≠ (pixelOne p).mem.idx := by
  obtain ⟨p, -, hx⟩ := exists_inexact_pixel one.tink
  refine ⟨p, _, matchCommand_of_read (cfg := Config.params) (s := pixelOne p) (m := .m2) (pxs := [p]) (one_gridSize _) rfl, ?_, ?_⟩
  · have hx' : ([p].map (matchPx Config.params .m2 (pixelOne p).tink)).any Prod.snd = true := by
      have : (matchPx Config.params .m2 (pixelOne p).tink p).2 = true := hx
      simp [this]
    have hw : (pixelOne p).warned = false := rfl
    simp only [State.setLastErr_warned, State.matched, hx', if_true, State.noteInexact, State.setMem_warned, hw]
    simp
  · have := (State.matched_fields (pixelOne p) Config.params .m2 [p]).1
    simp only [State.setLastErr_mem, this]
    simp [pixelOne, memWriteBlock, memWriteFrom, memWrite]

/-! ### The ports and the assembler -/

/-- Each named register, the reserved ones at both ends, the first and last INKMAP entry, and the first number that is
no register (R28, U14). -/
theorem witness_RegisterReadPort :
    (List.range 33).all (fun n => (doing (.readReg n) (inks one)).hostQueue == .readReg n :: []) = true ∧
      [0, 1, 2, 3, 4, 5, 6, 7, 8, 15, 16, 31].map (readRegister (inks one)) =
        [some 0, some 0, some 0, some 1, some 1, some 1, some 0, some 0, some 0, some 0, some 0x21, some 0] ∧
      readRegister (inks one) 32 = none := by decide

theorem witness_HostBufferAccess :
    0 < capacity Config.params .dat ∧ 0 < capacity Config.params .idx ∧
      capacity Config.params .pix ≤ 16777216 ∧ capacity Config.params .dat ≤ 16777215 ∧
      memReadElem one.mem .pix 0 = some (.pix (px 9 9 9 255)) ∧ memReadElem one.mem .rgb 0 = none ∧
      (doing (.write 0 (.dat 0)) one).hostQueue = .write 0 (.dat 0) :: [] ∧
      (doing (.read .rgb 0) one).hostQueue = .read .rgb 0 :: [] := by
  have := capDat_lt Config.params
  refine ⟨capDat_pos _, capGrid_pos _, capGrid_le _, ?_, by decide, by decide, rfl, rfl⟩
  show Config.params.capDat ≤ 16777215
  omega

/-- The first operand each line refuses, and the last it takes. -/
theorem witness_AssemblerWords :
    assemble (.setw 65535) = some [0x1000FFFF] ∧ assemble (.setw 65536) = none ∧ assemble (.setlen 16777216) = none ∧
      assemble (.setti 16) = none ∧ assemble (.setbg 31) = some [0x5000003F] ∧ assemble (.setbg 32) = none ∧
      assemble (.matchMode 3) = some [0x8C000000] ∧ assemble (.matchMode 4) = none := by decide

/-! ### Configuration commands -/

theorem witness_configuration_commands : one.fatal = false ∧ (inks one).fatal = false := ⟨rfl, rfl⟩

/-- Both sides of the ink bound (R218). -/
theorem witness_SetBackgroundInkCommand :
    (26 : InkCode).toNat < 27 ∧ 27 ≤ (27 : InkCode).toNat ∧ 27 ≤ (31 : InkCode).toNat := by decide

theorem witness_SetInkCommand :
    27 ≤ (27 : InkCode).toNat ∧ (26 : InkCode).toNat < 27 ∧ ((inks one).inkEntry 1).v = true ∧
      ((inks one).inkEntry 15).v = false := by decide

/-! ### The matcher -/

theorem witness_NearestIsLowestIndexMinimum :
    palRgb tcfg .m0 15 = some (rgb 255 128 0) ∧ palRgb tcfg .m2 1 = some (rgb 255 255 255) := by decide

theorem witness_MatchOfOnePixel :
    ((px 1 2 3 0).a = 0 ∧ TransparentInk.v { v := true, idx := 7 } = true) ∧
      ¬((px 1 2 3 0).a = 0 ∧ TransparentInk.v { v := false, idx := 7 } = true) ∧
      ¬((px 1 2 3 1).a = 0 ∧ TransparentInk.v { v := true, idx := 7 } = true) := by decide

theorem witness_ExactColourMatchesItsEntry :
    tcfg.palettesDistinct = true ∧ ¬((px 255 0 128 0).a = 0 ∧ TransparentInk.v { v := false, idx := 3 } = true) ∧
      palRgb tcfg .m0 7 = some { r := (px 255 0 128 0).r, g := (px 255 0 128 0).g, b := (px 255 0 128 0).b } := by
  decide

/-- Vector 3.17 applied to 3.9. -/
theorem witness_MatchingIsIdempotent :
    tcfg.palettesDistinct = true ∧
      palRgb tcfg .m0 (matchPx tcfg .m0 { v := false, idx := 0 } (px 130 120 140 255)).1.toNat =
        some (rgb 128 128 128) := by decide

theorem witness_MatchCommandResult :
    huge.fatal = false ∧ Config.params.capGrid < huge.gridSize ∧ one.fatal = false ∧
      one.gridSize ≤ Config.params.capGrid ∧ Written one.mem.pix one.gridSize :=
  ⟨rfl, huge_gridSize _, rfl, one_gridSize _, one_written.1⟩

/-- The warning clause: an out-of-palette pixel while WARNED is clear; with WARNED set the other clause applies. -/
theorem witness_MatchCommandResult_warning :
    ∃ p, (∃ i q, i < (pixelOne p).gridSize ∧ memRead (pixelOne p).mem.pix i = some q ∧
        (matchPx Config.params .m2 (pixelOne p).tink q).2 = true) ∧ (pixelOne p).warned = false ∧
      Written (pixelOne p).mem.pix (pixelOne p).gridSize ∧ { pixelOne p with warned := true }.warned = true := by
  obtain ⟨p, -, hx⟩ := exists_inexact_pixel one.tink
  have hg : (pixelOne p).gridSize = 1 := rfl
  refine ⟨p, ⟨0, p, by omega, rfl, hx⟩, rfl, fun i hi => ?_, rfl⟩
  obtain rfl : i = 0 := by omega
  exact ⟨p, rfl⟩

/-! ### The packer and the unpacker -/

theorem witness_CeilDivIsLeastQuotient : 0 < 8 ∧ 9 ≤ 2 * 8 ∧ ceilDiv 9 8 = 2 ∧ ceilDiv 8 8 = 1 ∧ ceilDiv 0 8 = 0 := by
  decide

theorem witness_InterleaveIsBijective :
    1 < ppb .m0 ∧ 3 < bpp .m0 ∧ posBit .m0 1 3 = 0 ∧ 7 < ppb .m2 ∧ 0 < bpp .m2 ∧ posBit .m2 7 0 = 0 := by decide

theorem witness_PackedByteBits :
    (byteBitOrigin .m0)[7]? = some (1, 3) ∧ (byteBitOrigin .m1)[7]? = some (3, 1) ∧
      (byteBitOrigin .m2)[7]? = some (7, 0) ∧ (byteBitOrigin .m0)[0]? = some (0, 0) := by decide

theorem witness_UnpackedPenBits :
    (7 < 8 ∧ unpackByte .m2 0x01 7 = 1) ∧ (3 < 4 ∧ unpackByte .m1 0x01 3 = 2) ∧ 1 < 2 ∧ unpackByte .m0 0x01 1 = 8 := by
  decide

theorem witness_PackAndUnpackByteAreInverse :
    ∀ m : Mode, ppb m - 1 < ppb m ∧ (BitVec.ofNat 4 (ncol m - 1) : Pen).toNat < ncol m := by
  intro m; cases m <;> decide

/-- A pen that is no pen of mode 1 or 2. -/
def penOne : State := grid 1 1 0 [] [7] []

theorem penOne_gridSize (cfg : Params) : penOne.gridSize ≤ cfg.capGrid ∧ penOne.packedSize .m1 ≤ cfg.capDat := by
  have := capGrid_pos cfg
  have := capDat_pos cfg
  have : penOne.gridSize = 1 := by decide
  have : penOne.packedSize .m1 = 1 := by decide
  omega

theorem witness_PackCommandResult :
    (huge.fatal = false ∧ Config.params.capGrid < huge.gridSize) ∧
      (∀ m, Config.params.capDat < huge.packedSize m) ∧ one.fatal = false ∧
      ∀ m, one.gridSize ≤ Config.params.capGrid ∧ one.packedSize m ≤ Config.params.capDat ∧
        PensOfMode m one.mem.idx one.gridSize :=
  ⟨⟨rfl, huge_gridSize _⟩, huge_packedSize _, rfl, fun m => ⟨one_gridSize _, one_packedSize _ m, one_pens m⟩⟩

theorem witness_PackCommandResult_index :
    penOne.gridSize ≤ Config.params.capGrid ∧ penOne.packedSize .m1 ≤ Config.params.capDat ∧
      Written penOne.mem.idx penOne.gridSize ∧
      ∃ i p, i < penOne.gridSize ∧ memRead penOne.mem.idx i = some p ∧ ncol .m1 ≤ p.toNat := by
  have hg : penOne.gridSize = 1 := by decide
  refine ⟨(penOne_gridSize _).1, (penOne_gridSize _).2, fun i hi => ?_, 0, 7, by decide, by decide, by decide⟩
  obtain rfl : i = 0 := by omega
  exact ⟨7, by decide⟩

/-- A chunk of the one-element grid: slot 0 holds its pen, the slots beyond the row pen 0. -/
theorem witness_PackCommandResult_chunk (m : Mode) :
    0 < one.height.toNat ∧ 0 < bytesPerRow m one.width.toNat ∧
      (∀ k, k < ppb m → 0 * ppb m + k < one.width.toNat →
        memRead one.mem.idx (0 * one.width.toNat + 0 * ppb m + k) = some (if k = 0 then 1 else 0)) ∧
      ∀ k, k < ppb m → one.width.toNat ≤ 0 * ppb m + k → (if k = 0 then 1 else 0 : Pen) = 0 := by
  have hw : one.width.toNat = 1 := by decide
  refine ⟨by decide, bytesPerRow_pos (by decide), fun k _ hk => ?_, fun k _ hk => if_neg (by omega)⟩
  obtain rfl : k = 0 := by omega
  simp only [Nat.zero_mul, Nat.zero_add, if_true]
  decide

theorem witness_PackModeZeroNeverRaisesIndex :
    exec .pack0 one = .next ((one.packed .m0 [1]).setLastErr 0) :=
  packCommand_of_pens (cfg := Config.params) (s := one) (ps := [1]) (one_gridSize _) (one_packedSize _ .m0) (by decide)

/-- Vectors 5.24, 5.25, 5.27, 5.29, and 5.30 in a configuration with a large `CAP_DAT`. -/
theorem witness_UnpackCommandErrors :
    tcfg.capDat < (grid 2 0 33 [] [] []).len.toNat ∧
      ((grid 0 0 4 [] [] []).len.toNat ≤ tcfg.capDat ∧ (grid 0 0 4 [] [] []).width = 0) ∧
      ((grid 5 0 3 [] [] []).len.toNat ≤ tcfg.capDat ∧ (grid 5 0 3 [] [] []).width ≠ 0 ∧
        (grid 5 0 3 [] [] []).len.toNat % bytesPerRow .m1 (grid 5 0 3 [] [] []).width.toNat ≠ 0) ∧
      ((grid 64 0 16 [] [] []).len.toNat ≤ tcfg.capDat ∧ (grid 64 0 16 [] [] []).width ≠ 0 ∧
        (grid 64 0 16 [] [] []).len.toNat % bytesPerRow .m2 (grid 64 0 16 [] [] []).width.toNat = 0 ∧
        tcfg.capGrid < (grid 64 0 16 [] [] []).width.toNat * (grid 64 0 16 [] [] []).derivedHeight .m2) ∧
      (grid 1 0 65536 [] [] []).len.toNat ≤ Params.capDat { tcfg with capDatPred := 65535 } ∧
      65535 < (grid 1 0 65536 [] [] []).derivedHeight .m0 := by decide

theorem witness_UnpackCommandResult (m : Mode) :
    one.fatal = false ∧ one.len.toNat ≤ Config.params.capDat ∧ one.width ≠ 0 ∧
      one.len.toNat % bytesPerRow m one.width.toNat = 0 ∧ one.derivedHeight m ≤ 65535 ∧
      one.width.toNat * one.derivedHeight m ≤ Config.params.capGrid ∧ Written one.mem.dat one.len.toNat ∧
      0 < one.derivedHeight m ∧ memRead one.mem.dat 0 = some 0x80 :=
  have h := one_block Config.params m
  ⟨rfl, h.1, h.2.1, h.2.2.1, h.2.2.2.1, h.2.2.2.2, one_written.2.2, by cases m <;> decide, by decide⟩

theorem witness_PackThenUnpackRestoresGrid (m : Mode) :
    one.fatal = false ∧ one.width ≠ 0 ∧ one.gridSize ≤ Config.params.capGrid ∧
      one.packedSize m ≤ Config.params.capDat ∧ PensOfMode m one.mem.idx one.gridSize :=
  ⟨rfl, by decide, one_gridSize _, one_packedSize _ m, one_pens m⟩

/-- Vector 5.21's block: width 4, three rows of whole chunks. -/
def blockOf521 : State := grid 4 0 6 [] [] [0xC0, 0x0C, 0xCC, 0x30, 0xF0, 0x3C]

theorem witness_UnpackThenPackRestoresData :
    blockOf521.fatal = false ∧ blockOf521.width ≠ 0 ∧ blockOf521.width.toNat % ppb .m0 = 0 ∧
      blockOf521.len.toNat ≤ tcfg.capDat ∧ blockOf521.len.toNat % bytesPerRow .m0 blockOf521.width.toNat = 0 ∧
      blockOf521.derivedHeight .m0 ≤ 65535 ∧
      blockOf521.width.toNat * blockOf521.derivedHeight .m0 ≤ tcfg.capGrid ∧
      Written blockOf521.mem.dat blockOf521.len.toNat := by
  refine ⟨rfl, by decide, by decide, by decide, by decide, by decide, by decide, ?_⟩
  have : ∀ i, i < blockOf521.len.toNat → (memRead blockOf521.mem.dat i).isSome = true := by decide
  exact fun i hi => Option.isSome_iff_exists.1 (this i hi)

theorem witness_OutputRegistersAreNotInputs :
    exec .unpack1 one = .next ((one.unpacked .m1 [0x80]).setLastErr 0) ∧
      exec .unpack1 .reset = .next (State.reset.raised .malformed) ∧
      exec .pack1 one = .next ((one.packed .m1 [1]).setLastErr 0) ∧
      exec .pack1 penOne = .next (penOne.raised .index) := by
  have h := one_block Config.params .m1
  refine ⟨unpackCommand_of_read (cfg := Config.params) (s := one) h.1 h.2.1 h.2.2.1 h.2.2.2.1 h.2.2.2.2 rfl, rfl,
    packCommand_of_pens (cfg := Config.params) (s := one) (one_gridSize _) (one_packedSize _ .m1) (by decide), ?_⟩
  have hp := penOne_gridSize Config.params
  show packCommand Config.params .m1 penOne = _
  unfold packCommand
  rw [if_neg (fun h => h.elim (Nat.not_lt.2 hp.1) (Nat.not_lt.2 hp.2))]
  rfl

/-! ### RESOLVE and unwritten reads -/

theorem witness_ResolveOfOnePen :
    (inks one).storedInksValid ∧ ((inks one).inkEntry 1).v = true ∧ ((inks one).inkEntry 2).v = false ∧
      (inks one).bgink.v = false ∧ { inks one with bgink := { v := true, ink := 26 } }.bgink.v = true := by
  refine ⟨?_, by decide, by decide, rfl, rfl⟩
  constructor <;> decide

/-- The warning clause with `one` (no pen mapped), the silent one with `inks one` (its pen mapped). -/
theorem witness_ResolveCommandResult :
    Config.params.capGrid < huge.gridSize ∧ huge.fatal = false ∧ one.fatal = false ∧
      one.gridSize ≤ Config.params.capGrid ∧ Written one.mem.idx one.gridSize ∧ one.storedInksValid ∧
      one.bgink.v = false ∧ (∀ q, (one.inkEntry q).v = false) ∧ (inks one).storedInksValid ∧
      ((inks one).inkEntry 1).v = true ∧ (inks one).mem.idx = [(0, 1)] := by
  refine ⟨huge_gridSize _, rfl, rfl, one_gridSize _, one_written.2.1, one_inks, rfl, by decide, ?_, by decide,
    by decide⟩
  constructor <;> decide

/-- A grid and a block of one element that nothing has written. -/
def blank : State := grid 1 1 1 [] [] []

theorem witness_UnwrittenReadsFault (m : Mode) :
    blank.fatal = false ∧ 0 < blank.gridSize ∧ blank.gridSize ≤ Config.params.capGrid ∧
      blank.packedSize m ≤ Config.params.capDat ∧ 0 < blank.len.toNat ∧ blank.len.toNat ≤ Config.params.capDat ∧
      blank.width ≠ 0 ∧ blank.len.toNat % bytesPerRow m blank.width.toNat = 0 ∧ blank.derivedHeight m ≤ 65535 ∧
      blank.width.toNat * blank.derivedHeight m ≤ Config.params.capGrid ∧ Written blank.mem.pix 0 ∧
      PensOfMode m blank.mem.idx 0 ∧ Written blank.mem.dat 0 ∧ memRead blank.mem.pix 0 = none ∧
      memRead blank.mem.idx 0 = none ∧ memRead blank.mem.dat 0 = none :=
  have h := one_block Config.params m
  ⟨rfl, by decide, one_gridSize _, one_packedSize _ m, by decide, h.1, h.2.1, h.2.2.1, h.2.2.2.1, h.2.2.2.2,
    fun _ hi => absurd hi (Nat.not_lt_zero _), fun _ hi => absurd hi (Nat.not_lt_zero _),
    fun _ hi => absurd hi (Nat.not_lt_zero _), rfl, rfl, rfl⟩

end Sys2Proof.Machine.Tests
end

/-! ## Arithmetic of the scope chapter (00_scope R10) -/

namespace Sys2Proof.Machine

/-- The defining property of R10: the model's quotient is the library's `a ⌈/⌉ b`, the lower adjoint of `b * ·`. -/
theorem ceilDiv_le_iff {a b q : Nat} (hb : 0 < b) : ceilDiv a b ≤ q ↔ a ≤ q * b := by
  rw [Nat.mul_comm]
  exact ceilDiv_le_iff_le_mul hb

/-- Settles O38: both halves of "least" are the adjunction `ceilDiv_le_iff`. -/
theorem ceilDivIsLeastQuotient : Obligations.CeilDivIsLeastQuotient := by
  intro a b hb
  exact ⟨(ceilDiv_le_iff hb).1 le_rfl, fun _ hq => (ceilDiv_le_iff hb).2 hq, rfl, (Nat.div_add_mod' a b).symm,
    Nat.mod_lt a hb⟩

end Sys2Proof.Machine

/-! ## The colour matcher: what distance, palette and search come to (40_color_matcher R120 to R124) -/

namespace Sys2Proof.Machine

/-- The channel distance is that of the integers, so it separates channels. -/
theorem sqDiff_eq_zero_iff (x y : Channel) : sqDiff x y = 0 ↔ x = y := by
  constructor
  · intro h
    have hsq : ((x.toNat : Int) - y.toNat) * ((x.toNat : Int) - y.toNat) = 0 :=
      le_antisymm (Int.toNat_eq_zero.1 h) (mul_self_nonneg _)
    have hdiff := mul_self_eq_zero.1 hsq
    exact BitVec.eq_of_toNat_eq (by omega)
  · rintro rfl
    simp [sqDiff]

theorem dist2_eq_zero_iff (c q : Rgb) : dist2 c q = 0 ↔ c = q := by
  cases c; cases q
  simp [dist2, sqDiff_eq_zero_iff, and_assoc]

@[simp] theorem dist2_self (c : Rgb) : dist2 c c = 0 := (dist2_eq_zero_iff c c).2 rfl

@[simp] theorem palette_length (cfg : Params) (m : Mode) : (palette cfg m).length = ncol m := by
  cases m <;> simp [palette, ncol]

theorem ncol_le_sixteen (m : Mode) : ncol m ≤ 16 := by cases m <;> decide

/-- What `Params.palettesDistinct` says of the palette of one mode (R8). -/
theorem palette_nodup {cfg : Params} (h : cfg.palettesDistinct = true) (m : Mode) : (palette cfg m).Nodup := by
  simp only [Params.palettesDistinct, Bool.and_eq_true, decide_eq_true_eq] at h
  obtain ⟨⟨h0, h1⟩, h2⟩ := h
  cases m
  · exact h0
  · exact h1
  · exact h2

/-- A colour stands at one index of a distinct palette only. -/
theorem palRgb_index_unique {cfg : Params} {m : Mode} {i k : Nat} {c : Rgb} (h : cfg.palettesDistinct = true)
    (hi : palRgb cfg m i = some c) (hk : palRgb cfg m k = some c) : i = k :=
  (List.getElem?_inj (List.getElem?_eq_some_iff.1 hi).1 (palette_nodup h m)).1 (hi.trans hk.symm)

/-- The invariant of the search of R123: `best` is the index and the distance of the first entry of `seen` that is
nearest to `c`. -/
structure FirstNearest (c : Rgb) (seen : List Rgb) (best : Nat × Nat) : Prop where
  attained : ∃ q, seen[best.1]? = some q ∧ dist2 c q = best.2
  least : ∀ (j : Nat) (q : Rgb), seen[j]? = some q → best.2 ≤ dist2 c q
  lowest : ∀ (j : Nat) (q : Rgb), seen[j]? = some q → j < best.1 → best.2 < dist2 c q

/-- The entries of `seen ++ [q]` are those of `seen` and, after them, `q`. -/
theorem getElem?_concat_eq_some_iff {α : Type} {seen : List α} {q p : α} {j : Nat} :
    (seen ++ [q])[j]? = some p ↔ seen[j]? = some p ∨ j = seen.length ∧ q = p := by
  rcases Nat.lt_trichotomy j seen.length with hj | rfl | hj
  · simp [List.getElem?_append_left hj, hj.ne]
  · simp
  · simp [List.getElem?_eq_none, hj.le, hj.ne', Nat.succ_le_of_lt hj]

namespace FirstNearest

variable {c q : Rgb} {seen : List Rgb} {best : Nat × Nat}

theorem index_lt (h : FirstNearest c seen best) : best.1 < seen.length := by
  obtain ⟨q, hq, -⟩ := h.attained
  exact (List.getElem?_eq_some_iff.1 hq).1

/-- The search starts at entry 0. -/
theorem singleton (c q : Rgb) : FirstNearest c [q] (0, dist2 c q) where
  attained := ⟨q, rfl, rfl⟩
  least j p hj := by
    obtain hj | ⟨-, rfl⟩ := getElem?_concat_eq_some_iff (seen := []).1 hj
    · simp at hj
    · exact le_rfl
  lowest _ _ _ hlt := absurd hlt (Nat.not_lt_zero _)

/-- A strictly nearer entry takes over. -/
theorem concat_nearer (h : FirstNearest c seen best) (hq : dist2 c q < best.2) :
    FirstNearest c (seen ++ [q]) (seen.length, dist2 c q) := by
  have old : ∀ (j : Nat) (p : Rgb), seen[j]? = some p → dist2 c q < dist2 c p :=
    fun j p hj => hq.trans_le (h.least j p hj)
  refine ⟨⟨q, by simp, rfl⟩, fun j p hj => ?_, fun j p hj hlt => ?_⟩
  · obtain hj | ⟨-, rfl⟩ := getElem?_concat_eq_some_iff.1 hj
    · exact (old j p hj).le
    · exact le_rfl
  · obtain hj | ⟨rfl, -⟩ := getElem?_concat_eq_some_iff.1 hj
    · exact old j p hj
    · exact absurd hlt (lt_irrefl _)

/-- An entry at the same distance or farther leaves the best as it is. -/
theorem concat_farther (h : FirstNearest c seen best) (hq : best.2 ≤ dist2 c q) :
    FirstNearest c (seen ++ [q]) best := by
  obtain ⟨p, hp, hd⟩ := h.attained
  refine ⟨⟨p, getElem?_concat_eq_some_iff.2 (.inl hp), hd⟩, fun j p hj => ?_, fun j p hj hlt => ?_⟩
  · obtain hj | ⟨-, rfl⟩ := getElem?_concat_eq_some_iff.1 hj
    · exact h.least j p hj
    · exact hq
  · obtain hj | ⟨rfl, -⟩ := getElem?_concat_eq_some_iff.1 hj
    · exact h.lowest j p hj hlt
    · exact absurd hlt h.index_lt.le.not_gt

end FirstNearest

/-- The loop of R123 keeps the invariant over the entries still to come. -/
theorem nearestLoop_firstNearest {c : Rgb} (rest : List Rgb) {seen : List Rgb} {best bestd : Nat}
    (h : FirstNearest c seen (best, bestd)) :
    FirstNearest c (seen ++ rest) (nearestLoop c rest seen.length best bestd) := by
  induction rest generalizing seen best bestd with
  | nil => simpa [nearestLoop] using h
  | cons q rest ih =>
    have hlen : seen.length + 1 = (seen ++ [q]).length := by simp
    rw [List.append_cons, nearestLoop, hlen]
    split
    case isTrue hq => exact ih (h.concat_nearer hq)
    case isFalse hq => exact ih (h.concat_farther (Nat.le_of_not_lt hq))

/-- What `nearest` answers (R123), in one statement. -/
theorem nearest_firstNearest (cfg : Params) (m : Mode) (c : Rgb) :
    FirstNearest c (palette cfg m) (nearest cfg m c) := by
  unfold nearest
  have hlen : 0 < (palette cfg m).length := by cases m <;> simp [ncol]
  obtain ⟨q, qs, hpal⟩ := List.exists_cons_of_length_pos hlen
  rw [hpal]
  exact nearestLoop_firstNearest qs (.singleton c q)

theorem nearest_index_lt (cfg : Params) (m : Mode) (c : Rgb) : (nearest cfg m c).1 < ncol m :=
  palette_length cfg m ▸ (nearest_firstNearest cfg m c).index_lt

/-- A colour that stands in the palette is found at distance 0. -/
theorem nearest_distance_of_entry {cfg : Params} {m : Mode} {k : Nat} {c : Rgb} (hk : palRgb cfg m k = some c) :
    (nearest cfg m c).2 = 0 :=
  Nat.le_zero.1 (dist2_self c ▸ (nearest_firstNearest cfg m c).least k c hk)

/-- A distance of 0 is an exact match: the entry found is the colour itself. -/
theorem palRgb_nearest_of_distance_zero {cfg : Params} {m : Mode} {c : Rgb} (hd : (nearest cfg m c).2 = 0) :
    palRgb cfg m (nearest cfg m c).1 = some c := by
  obtain ⟨q, hq, hdq⟩ := (nearest_firstNearest cfg m c).attained
  obtain rfl := (dist2_eq_zero_iff c q).1 (hdq.trans hd)
  exact hq

/-- `match_px` on the override path (R124). -/
theorem matchPx_of_override {cfg : Params} {m : Mode} {tink : TransparentInk} {px : Pixel}
    (h : px.a = 0 ∧ tink.v = true) : matchPx cfg m tink px = (tink.idx, false) := if_pos h

/-- `match_px` off the override path (R124). -/
theorem matchPx_of_not_override {cfg : Params} {m : Mode} {tink : TransparentInk} {px : Pixel}
    (h : ¬(px.a = 0 ∧ tink.v = true)) :
    matchPx cfg m tink px =
      (BitVec.ofNat 4 (nearest cfg m (Pixel.rgb px)).1, decide ((nearest cfg m (Pixel.rgb px)).2 ≠ 0)) := if_neg h

/-- The index found fits the pen: no bit of it is lost. -/
theorem nearest_pen_toNat (cfg : Params) (m : Mode) (c : Rgb) :
    (BitVec.ofNat 4 (nearest cfg m c).1).toNat = (nearest cfg m c).1 :=
  Nat.mod_eq_of_lt ((nearest_index_lt cfg m c).trans_le (ncol_le_sixteen m))

/-- Settles O35: the search finds the colour at distance 0, and distinctness leaves it one index. -/
theorem exactColourMatchesItsEntry : Obligations.ExactColourMatchesItsEntry := by
  intro cfg m tink k px hdistinct hpath hk
  have hdist : (nearest cfg m (Pixel.rgb px)).2 = 0 := nearest_distance_of_entry hk
  have hindex : (nearest cfg m (Pixel.rgb px)).1 = k :=
    palRgb_index_unique hdistinct (palRgb_nearest_of_distance_zero hdist) hk
  rw [matchPx_of_not_override hpath]
  exact ⟨(nearest_pen_toNat cfg m (Pixel.rgb px)).trans hindex, by simp [hdist]⟩

end Sys2Proof.Machine

/-! ## What a step does to the records of the run: FATAL, WARNED, LASTERR, ERRCNT and DIAG (10_state R27 to R40) -/

namespace Sys2Proof.Machine

/-- A command word is ignored, raises one error, or completes (R95, R246, R250). -/
theorem issueCommand_effect {w : Word} {s t : State} (h : issueCommand w s = .next t) :
    t = s ∨ s.fatal = false ∧ ((∃ e, t = s.raised e) ∨ Completed s t) := by
  obtain ⟨-, rfl⟩ | ⟨hf, -, rfl⟩ | ⟨hf, i, -, hi⟩ := issueCommand_next_cases h
  · exact .inl rfl
  · exact .inr ⟨hf, .inl ⟨_, rfl⟩⟩
  · exact .inr ⟨hf, exec_next_cases hi⟩

/-- Two states with the same flags, LASTERR, ERRCNT and trace. -/
structure SameRecords (s t : State) : Prop where
  fatal : t.fatal = s.fatal
  warned : t.warned = s.warned
  lastErr : t.lastErr = s.lastErr
  errCnt : t.errCnt = s.errCnt
  diag : t.diag = s.diag

/-- All a step can do to the records: nothing, reset, one error raised, or a command completed, the last two only while
FATAL is clear. The state `u` is the one the command found. -/
theorem step_record_cases {s t : State} (h : step s = .next t) :
    SameRecords s t ∨
    (s.hostQueue.head? = some .reset ∧ SameRecords State.reset t) ∨
    (s.fatal = false ∧ ∃ u, SameRecords s u ∧ ((∃ e, t = u.raised e) ∨ Completed u t)) := by
  obtain ⟨-, rfl⟩ | ⟨a, rest, hq, ha⟩ := step_next_cases h
  · exact .inl ⟨rfl, rfl, rfl, rfl, rfl⟩
  obtain ⟨w, rfl, hw⟩ | ⟨i, e, -, -, rfl⟩ | ⟨sp, i, e, -, -, rfl⟩ | ⟨n, v, -, -, rfl⟩ | ⟨rfl, rfl⟩ :=
    hostAct_next_cases ha
  · obtain rfl | ⟨hf, he⟩ := issueCommand_effect hw
    · exact .inl ⟨rfl, rfl, rfl, rfl, rfl⟩
    · exact .inr (.inr ⟨hf, s.setHostQueue rest, ⟨rfl, rfl, rfl, rfl, rfl⟩, he⟩)
  · exact .inl ⟨rfl, rfl, rfl, rfl, rfl⟩
  · exact .inl ⟨rfl, rfl, rfl, rfl, rfl⟩
  · exact .inl ⟨rfl, rfl, rfl, rfl, rfl⟩
  · exact .inr (.inl ⟨by simp [hq], ⟨rfl, rfl, rfl, rfl, rfl⟩⟩)

/-- An invariant of the records holds of every step once it holds at reset and an error raised and a command completed
keep it. -/
theorem step_keeps_of_records {P : State → Prop} (congr : ∀ {s t}, SameRecords s t → P s → P t) (reset : P State.reset)
    (raised : ∀ {s} (e : ErrorKind), s.fatal = false → P s → P (s.raised e))
    (completed : ∀ {s t}, s.fatal = false → Completed s t → P s → P t) {s t : State} (hs : P s)
    (h : step s = .next t) : P t := by
  obtain hst | ⟨-, hr⟩ | ⟨hf, u, hsu, ⟨e, rfl⟩ | hc⟩ := step_record_cases h
  · exact congr hst hs
  · exact congr hr reset
  · exact raised e (hsu.fatal.trans hf) (congr hsu hs)
  · exact completed (hsu.fatal.trans hf) hc (congr hsu hs)

/-- The events of a completed command are at most one, and warnings (R244, R245). -/
theorem EventStep.diag_eq_append_warnings {s t : State} (h : EventStep s t) :
    ∃ ws : List Warning, ws.length ≤ 1 ∧ t.diag = s.diag ++ ws.map Warning.code := by
  obtain ⟨hd, -⟩ | ⟨w, -, hd, -⟩ | ⟨-, -, hd⟩ := h
  · exact ⟨[], by simp, by simpa using hd⟩
  · exact ⟨[w], by simp, hd⟩
  · exact ⟨[.palette], by simp, hd⟩

/-- A command never clears WARNED (R125). -/
theorem EventStep.warned_of_warned {s t : State} (h : EventStep s t) (hs : s.warned = true) : t.warned = true := by
  obtain ⟨-, hw⟩ | ⟨w, -, -, hw⟩ | ⟨-, hw, -⟩ := h
  · exact hw.trans hs
  · exact hw.trans hs
  · exact hw

/-- Warnings are not counted as errors (R244). -/
theorem EventStep.countP_isErrorEvent {s t : State} (h : EventStep s t) :
    t.diag.countP isErrorEvent = s.diag.countP isErrorEvent := by
  obtain ⟨ws, -, hd⟩ := h.diag_eq_append_warnings
  simp [hd, Warning.isErrorEvent_code]

/-- No warning is an error's event (R244). -/
theorem EventStep.event_mem_diag_iff {s t : State} (h : EventStep s t) (e : ErrorKind) :
    e.event ∈ t.diag ↔ e.event ∈ s.diag := by
  obtain ⟨ws, -, hd⟩ := h.diag_eq_append_warnings
  simp [hd, fun w => (e.event_ne_code w).symm]

/-- ERRCNT saturates (R32). -/
theorem countError_toNat (n : BitVec 32) : (countError n).toNat = min (n.toNat + 1) (2 ^ 32 - 1) := by
  have hn := n.isLt
  unfold countError
  split
  case isTrue h => simp [h]
  case isFalse h =>
    have hne : n.toNat ≠ 2 ^ 32 - 1 := fun hk => h (BitVec.eq_of_toNat_eq (by simpa using hk))
    rw [BitVec.toNat_add, show BitVec.toNat (1 : BitVec 32) = 1 from rfl, Nat.mod_eq_of_lt (by omega)]
    omega

theorem le_countError (n : BitVec 32) : n.toNat ≤ (countError n).toNat := by
  have hn := n.isLt
  rw [countError_toNat]
  omega

theorem ErrorKind.event_eq_mode_iff (e : ErrorKind) : e.event = ErrorKind.mode.event ↔ e.isFatal = true := by
  cases e <;> decide

theorem ErrorKind.code_eq_mode_iff (e : ErrorKind) : e.code = ErrorKind.mode.code ↔ e.isFatal = true := by
  cases e <;> decide

/-! The reset state has each invariant (R38, R281). -/

theorem reset_memoryGood (cfg : Params) : State.reset.memoryGood cfg :=
  ⟨rfl, ⟨nofun, nofun, nofun, nofun⟩⟩

theorem reset_inkEntry (q : Pen) : State.reset.inkEntry q = { v := false, ink := 0 } := by
  simp [State.inkEntry, State.reset]

theorem reset_storedInksValid : State.reset.storedInksValid :=
  ⟨by decide, fun q => by rw [reset_inkEntry]; decide⟩

theorem reset_oneShot : State.reset.oneShot := rfl

theorem reset_errorsCounted : State.reset.errorsCounted := rfl

theorem reset_fatalRecorded : State.reset.fatalRecorded := by
  constructor <;> decide

theorem reset_codesKnown : State.reset.codesKnown := ⟨.inl rfl, nofun⟩

/-- Settles O14: one lemma an invariant. -/
theorem resetStateIsGood : Obligations.ResetStateIsGood :=
  ⟨reset_memoryGood Config.params, reset_storedInksValid, reset_oneShot, reset_errorsCounted, reset_fatalRecorded,
    reset_codesKnown⟩

theorem errorsCounted_of_sameRecords {s t : State} (h : SameRecords s t) (hs : s.errorsCounted) : t.errorsCounted := by
  simpa only [State.errorsCounted, h.errCnt, h.diag] using hs

/-- An error adds one to the counter and one error event to the trace. -/
theorem errorsCounted_raised {s : State} (e : ErrorKind) (hs : s.errorsCounted) : (s.raised e).errorsCounted := by
  have hcount : (s.diag ++ [e.event]).countP isErrorEvent = s.diag.countP isErrorEvent + 1 := by
    simp [e.isErrorEvent_event]
  unfold State.errorsCounted at hs ⊢
  rw [State.raised_errCnt, State.raised_diag, countError_toNat, hs, hcount]
  omega

theorem errorsCounted_completed {s t : State} (h : Completed s t) (hs : s.errorsCounted) : t.errorsCounted := by
  unfold State.errorsCounted at hs ⊢
  rw [h.errCnt, h.events.countP_isErrorEvent, hs]

/-- Settles O18: an error counts once and is recorded once, and every other change leaves both counts alone. -/
theorem stepKeepsErrorCount : Obligations.StepKeepsErrorCount := fun _ _ =>
  step_keeps_of_records errorsCounted_of_sameRecords reset_errorsCounted (fun e _ => errorsCounted_raised e)
    fun _ => errorsCounted_completed

theorem fatalRecorded_of_sameRecords {s t : State} (h : SameRecords s t) (hs : s.fatalRecorded) : t.fatalRecorded := by
  simpa only [State.fatalRecorded, h.fatal, h.lastErr, h.diag] using hs

/-- With FATAL clear, an error sets it exactly if it is the mode error, which is then the new event and LASTERR. -/
theorem fatalRecorded_raised {s : State} (e : ErrorKind) (hf : s.fatal = false) (hs : s.fatalRecorded) :
    (s.raised e).fatalRecorded := by
  have hfatal : (s.raised e).fatal = e.isFatal := by simp [hf]
  have hold : ErrorKind.mode.event ∉ s.diag := fun hm => by simp [hs.1.2 hm] at hf
  refine ⟨?_, ?_⟩
  · rw [hfatal, State.raised_diag, List.mem_append, List.mem_singleton, eq_comm (b := e.event), e.event_eq_mode_iff]
    simp [hold]
  · rw [hfatal, State.raised_lastErr, e.code_eq_mode_iff]

/-- A command that completes finds FATAL clear, so it leaves no mode error to record. -/
theorem fatalRecorded_completed {s t : State} (hf : s.fatal = false) (h : Completed s t) (hs : s.fatalRecorded) :
    t.fatalRecorded := by
  refine ⟨?_, ?_⟩
  · rw [h.fatal, h.events.event_mem_diag_iff]
    exact hs.1
  · simp only [h.fatal, hf, h.lastErr, ErrorKind.mode.code_ne_zero.symm, Bool.false_eq_true]

/-- Settles O19: FATAL is clear wherever a command acts, and the mode error alone sets it. -/
theorem stepKeepsFatalRecord : Obligations.StepKeepsFatalRecord := fun _ _ =>
  step_keeps_of_records fatalRecorded_of_sameRecords reset_fatalRecorded fatalRecorded_raised fatalRecorded_completed

/-- Settles O12: no error and no completed command clears or lowers anything, and each appends at most one event. -/
theorem onlyResetClears : Obligations.OnlyResetClears := by
  intro s t h hreset
  obtain hst | ⟨hr, -⟩ | ⟨-, u, hsu, ⟨e, rfl⟩ | hc⟩ := step_record_cases h
  · exact ⟨hst.fatal.trans, hst.warned.trans, by rw [hst.errCnt], [], by simp, by simp [hst.diag]⟩
  · exact absurd hr hreset
  · exact ⟨fun hf => by simp [hsu.fatal, hf], hsu.warned.trans, by simp [hsu.errCnt, le_countError], [e.event],
      by simp, by simp [hsu.diag]⟩
  · obtain ⟨ws, hlen, hd⟩ := hc.events.diag_eq_append_warnings
    exact ⟨(hc.fatal.trans hsu.fatal).trans, fun hw => hc.events.warned_of_warned (hsu.warned.trans hw),
      by rw [hc.errCnt, hsu.errCnt], ws.map Warning.code, by simpa using hlen, by rw [hd, hsu.diag]⟩

end Sys2Proof.Machine

/-! ## The actions of the host: their order, reset, the register read port, and what is always carried out (R24 to R38,
R62, R69, R290) -/

namespace Sys2Proof.Machine

/-- No action touches the actions after it (R71). -/
theorem hostAct_hostQueue {a : HostAction} {s t : State} (h : hostAct a s = .next t) : t.hostQueue = s.hostQueue := by
  obtain ⟨w, -, hw⟩ | ⟨i, e, -, -, rfl⟩ | ⟨sp, i, e, -, -, rfl⟩ | ⟨n, v, -, -, rfl⟩ | ⟨-, rfl⟩ := hostAct_next_cases h
  · obtain rfl | ⟨-, ⟨e, rfl⟩ | hc⟩ := issueCommand_effect hw
    · rfl
    · rfl
    · exact hc.hostQueue
  · rfl
  · rfl
  · rfl
  · rfl

/-- Settles O7: the step takes the action off the queue, and the action leaves the rest alone. -/
theorem stepUsesUpOneAction : Obligations.StepUsesUpOneAction := by
  intro s t a rest hq h
  rw [step_of_action hq] at h
  exact hostAct_hostQueue h

/-- Settles O11: the step is `State.resetEngine`. -/
theorem resetActionLeavesResetValues : Obligations.ResetActionLeavesResetValues := by
  intro s rest hq
  refine ⟨(s.setHostQueue rest).resetEngine, step_of_action hq, rfl, rfl, rfl, rfl, rfl, rfl, rfl, rfl, rfl,
    reset_inkEntry, rfl, fun sp i => ?_, rfl, rfl⟩
  cases sp <;> rfl

/-- STATUS is its two flags (R30). -/
theorem State.status_toNat (s : State) : s.status.toNat = s.warned.toNat * 2 + s.fatal.toNat := by
  unfold State.status
  cases s.warned <;> cases s.fatal <;> decide

/-- TINK reads as V above IDX (R33). -/
theorem TransparentInk.word_toNat (x : TransparentInk) : x.word.toNat = x.v.toNat * 16 + x.idx.toNat := by
  have hi := x.idx.isLt
  have hv := x.v.toNat_lt
  rw [TransparentInk.word, BitVec.toNat_setWidth, BitVec.toNat_append, BitVec.toNat_ofBool,
    ← Nat.shiftLeft_add_eq_or_of_lt hi, Nat.shiftLeft_eq]
  omega

/-- BGINK and the INKMAP entries read as V above the ink code (R34, R36). -/
theorem InkEntry.word_toNat (x : InkEntry) : x.word.toNat = x.v.toNat * 32 + x.ink.toNat := by
  have hi := x.ink.isLt
  have hv := x.v.toNat_lt
  rw [InkEntry.word, BitVec.toNat_setWidth, BitVec.toNat_append, BitVec.toNat_ofBool,
    ← Nat.shiftLeft_add_eq_or_of_lt hi, Nat.shiftLeft_eq]
  omega

/-- The reserved numbers, the INKMAP entries and the numbers the port does not have (R26, R28). -/
theorem readRegister_of_eight_le (s : State) {n : Nat} (h : 8 ≤ n) :
    readRegister s n =
      if n < 16 then some 0 else if n < 32 then some (s.inkEntry (BitVec.ofNat 4 (n - 16))).word else none := by
  obtain ⟨k, rfl⟩ := Nat.exists_eq_add_of_le' h
  rfl

theorem readRegister_of_reserved (s : State) {n : Nat} (h8 : 8 ≤ n) (h16 : n < 16) : readRegister s n = some 0 := by
  rw [readRegister_of_eight_le s h8, if_pos h16]

theorem readRegister_inkMap (s : State) (q : Pen) : readRegister s (16 + q.toNat) = some (s.inkEntry q).word := by
  have hq := q.isLt
  rw [readRegister_of_eight_le s (by omega), if_neg (by omega), if_pos (by omega)]
  simp

theorem readRegister_eq_none (s : State) {n : Nat} (h : 32 ≤ n) : readRegister s n = none := by
  rw [readRegister_of_eight_le s (by omega), if_neg (by omega), if_neg (by omega)]

theorem exists_readRegister (s : State) {n : Nat} (h : n < 32) : ∃ v, readRegister s n = some v := by
  by_cases h8 : n < 8
  · interval_cases n <;> exact ⟨_, rfl⟩
  · rw [readRegister_of_eight_le s (by omega), if_pos h]
    split
    · exact ⟨_, rfl⟩
    · exact ⟨_, rfl⟩

theorem step_readReg_of_some {s : State} {n : Nat} {rest : List HostAction} {v : Word}
    (hq : s.hostQueue = .readReg n :: rest) (hv : readRegister s n = some v) :
    step s = .next { s with hostQueue := rest, replies := s.replies ++ [.reg v] } := by
  have hv' : readRegister (s.setHostQueue rest) n = some v := hv
  rw [step_of_action hq, hostAct, hostReadReg, hv']
  rfl

theorem step_readReg_of_none {s : State} {n : Nat} {rest : List HostAction} (hq : s.hostQueue = .readReg n :: rest)
    (hv : readRegister s n = none) : step s = .refused (.noSuchRegister n) := by
  have hv' : readRegister (s.setHostQueue rest) n = none := hv
  rw [step_of_action hq, hostAct, hostReadReg, hv']

/-- Settles O23: the value is what `readRegister` gives, whose number each register's own lemma says. -/
theorem registerReadPort : Obligations.RegisterReadPort := by
  intro s n rest hq
  refine ⟨fun h32 => ?_, fun h32 => step_readReg_of_none hq (readRegister_eq_none s h32)⟩
  obtain ⟨v, hv⟩ := exists_readRegister s h32
  have value : ∀ {x : Word}, readRegister s n = some x → v = x := fun hx => Option.some.inj (hv.symm.trans hx)
  refine ⟨v, step_readReg_of_some hq hv, ?_, ?_, ?_, ?_, ?_, ?_, ?_, ?_, ?_, ?_⟩
  · rintro rfl; rw [value rfl, s.status_toNat]
  · rintro rfl; rw [value rfl, BitVec.toNat_setWidth_of_le (by decide)]
  · rintro rfl; exact value rfl
  · rintro rfl; rw [value rfl, BitVec.toNat_setWidth_of_le (by decide)]
  · rintro rfl; rw [value rfl, BitVec.toNat_setWidth_of_le (by decide)]
  · rintro rfl; rw [value rfl, BitVec.toNat_setWidth_of_le (by decide)]
  · rintro rfl; rw [value rfl, s.tink.word_toNat]
  · rintro rfl; rw [value rfl, s.bgink.word_toNat]
  · exact fun h8 h16 => value (readRegister_of_reserved s h8 h16)
  · rintro q rfl; rw [value (readRegister_inkMap s q), InkEntry.word_toNat]

/-! An action within the host's rights and duties is performed. -/

section

variable {cfg : Params} {m : Mode} {s : State}

theorem matchCommand_of_written (h : Written s.mem.pix s.gridSize) : ∃ t, matchCommand cfg m s = .next t := by
  obtain ⟨pxs, hr⟩ := memReadBlock_of_written h
  obtain ⟨-, hc⟩ | ⟨-, i, he, -⟩ | ⟨-, pxs, -, hc⟩ := matchCommand_cases cfg m s
  · exact ⟨_, hc⟩
  · simp [hr] at he
  · exact ⟨_, hc⟩

theorem packCommand_of_written (h : Written s.mem.idx s.gridSize) : ∃ t, packCommand cfg m s = .next t := by
  obtain ⟨-, hc⟩ | ⟨-, -, ⟨i, hi, -⟩ | ⟨-, hc⟩ | ⟨ps, -, hc⟩⟩ := packCommand_cases cfg m s
  · exact ⟨_, hc⟩
  · obtain ⟨-, hlt, hnone⟩ := scanPensFrom_unwritten hi
    obtain ⟨p, hp⟩ := h i (by omega)
    simp [hnone] at hp
  · exact ⟨_, hc⟩
  · exact ⟨_, hc⟩

theorem unpackCommand_of_written (h : Written s.mem.dat s.len.toNat) : ∃ t, unpackCommand cfg m s = .next t := by
  obtain ⟨bytes, hr⟩ := memReadBlock_of_written h
  obtain hc | hc | ⟨i, he, -⟩ | ⟨-, -, -, -, -, bytes, -, hc⟩ := unpackCommand_cases cfg m s
  · exact ⟨_, hc⟩
  · exact ⟨_, hc⟩
  · simp [hr] at he
  · exact ⟨_, hc⟩

theorem resolveCommand_of_written (hs : s.storedInksValid) (h : Written s.mem.idx s.gridSize) :
    ∃ t, resolveCommand cfg s = .next t := by
  obtain ⟨qs, hr⟩ := memReadBlock_of_written h
  obtain ⟨-, hc⟩ | ⟨-, ⟨i, he, -⟩ | ⟨qs, k, -, he, -⟩ | ⟨qs, cs, -, -, hc⟩⟩ := resolveCommand_cases cfg s
  · exact ⟨_, hc⟩
  · simp [hr] at he
  · obtain ⟨cs, hcs⟩ := resolvePens_total (cfg := cfg) hs qs
    simp [hcs] at he
  · exact ⟨_, hc⟩

end

theorem execSetbg_next (v : Bool) (ink : InkCode) (s : State) : ∃ t, execSetbg v ink s = .next t := by
  obtain ⟨-, hc⟩ | ⟨-, -, hc⟩ | ⟨-, -, hc⟩ := execSetbg_cases v ink s <;> exact ⟨_, hc⟩

theorem setInkCommand_next (policy : DupPenPolicy) (pen : Pen) (ink : InkCode) (s : State) :
    ∃ t, setInkCommand policy pen ink s = .next t := by
  obtain ⟨-, hc⟩ | ⟨-, -, -, hc⟩ | ⟨-, -, -, hc⟩ | ⟨-, -, hc⟩ := setInkCommand_cases policy pen ink s <;>
    exact ⟨_, hc⟩

/-- A command whose input is written neither faults nor is refused (R290). -/
theorem exec_of_inputWritten {i : Instr} {s : State} (hs : s.storedInksValid) (h : s.inputWritten i) :
    ∃ t, exec i s = .next t := by
  cases i with
  | setw | seth | setlen | setti | clrink | match3 | pack3 | unpack3 => exact ⟨_, rfl⟩
  | setbg v ink => exact execSetbg_next v ink s
  | setink pen ink => exact setInkCommand_next _ pen ink s
  | match0 | match1 | match2 => exact matchCommand_of_written h
  | pack0 | pack1 | pack2 => exact packCommand_of_written h
  | unpack0 | unpack1 | unpack2 => exact unpackCommand_of_written h
  | resolve => exact resolveCommand_of_written hs h

theorem issueCommand_of_inputWritten {w : Word} {s : State} (hs : s.storedInksValid)
    (h : ∀ i, decode w = .ok i → s.inputWritten i) : ∃ t, issueCommand w s = .next t := by
  unfold issueCommand
  split
  · exact ⟨_, rfl⟩
  · split
    · exact ⟨_, rfl⟩
    · next i hi => exact exec_of_inputWritten hs (h i hi)

theorem hostAct_of_allowed {a : HostAction} {s : State} (hs : s.storedInksValid)
    (h : s.actionAllowed Config.params a) : ∃ t, hostAct a s = .next t := by
  cases a with
  | command w => exact issueCommand_of_inputWritten hs h
  | write i e => exact ⟨_, if_pos h⟩
  | read sp i =>
    obtain ⟨hi, hsome⟩ := h
    obtain ⟨e, he⟩ := Option.isSome_iff_exists.1 hsome
    exact ⟨s.reply (.elem e), by rw [hostAct, hostRead, if_pos hi, he]⟩
  | readReg n =>
    obtain ⟨v, hv⟩ := exists_readRegister s h
    exact ⟨s.reply (.reg v), by rw [hostAct, hostReadReg, hv]⟩
  | reset => exact ⟨_, rfl⟩

/-- What the host may do does not depend on what it will do next. -/
theorem actionAllowed_setHostQueue {cfg : Params} {a : HostAction} {s : State} (rest : List HostAction) :
    (s.setHostQueue rest).actionAllowed cfg a ↔ s.actionAllowed cfg a := Iff.rfl

/-- Settles O21: with the input written and the stored inks valid, no stopping case of an action is left. -/
theorem allowedActionsAreCarriedOut : Obligations.AllowedActionsAreCarriedOut := by
  intro s a rest hs hq h
  rw [step_of_action hq]
  exact hostAct_of_allowed (storedInksValid_of_same rfl rfl hs) ((actionAllowed_setHostQueue rest).2 h)

end Sys2Proof.Machine

/-! ## What each command may write (10_state R29) -/

namespace Sys2Proof.Machine

/-- The write table of R29: `s` with the state that command `i` may write, and the error records, taken from `t`. -/
def State.withWritesOf (i : Instr) (s t : State) : State :=
  let u := { s with lastErr := t.lastErr, errCnt := t.errCnt, diag := t.diag }
  match i with
  | .setw _ => { u with width := t.width }
  | .seth _ => { u with height := t.height }
  | .setlen _ => { u with len := t.len }
  | .setti _ _ => { u with tink := t.tink }
  | .setbg _ _ => { u with bgink := t.bgink }
  | .setink _ _ | .clrink => { u with inkMap := t.inkMap }
  | .match0 | .match1 | .match2 => { u with mem := { s.mem with idx := t.mem.idx }, warned := t.warned }
  | .pack0 | .pack1 | .pack2 => { u with mem := { s.mem with dat := t.mem.dat }, len := t.len }
  | .unpack0 | .unpack1 | .unpack2 => { u with mem := { s.mem with idx := t.mem.idx }, height := t.height }
  | .resolve => { u with mem := { s.mem with rgb := t.mem.rgb } }
  | .match3 | .pack3 | .unpack3 => { u with fatal := t.fatal }

/-- An error that is not fatal writes the records alone, whichever command raises it (R246). -/
theorem State.raised_writes (i : Instr) (s : State) {e : ErrorKind} (he : e.isFatal = false) :
    s.raised e = s.withWritesOf i (s.raised e) := by
  have hrecords : s.raised e =
      { s with lastErr := e.code, errCnt := countError s.errCnt, diag := s.diag ++ [e.event] } := by
    simp [State.raised, he]
  rw [hrecords]
  cases i <;> rfl

section

variable {cfg : Params} {m : Mode} {s t : State}

theorem matchCommand_writes (h : matchCommand cfg m s = .next t) : t = s.withWritesOf (matchInstr m) t := by
  obtain ⟨-, hc⟩ | ⟨-, i, -, hc⟩ | ⟨-, pxs, -, hc⟩ := matchCommand_cases cfg m s
  · rw [hc] at h; cases h
    exact s.raised_writes _ rfl
  · rw [hc] at h; cases h
  · rw [hc] at h; cases h
    unfold State.matched State.noteInexact
    dsimp only
    split
    · split <;> cases m <;> rfl
    · cases m <;> rfl

theorem packCommand_writes (h : packCommand cfg m s = .next t) : t = s.withWritesOf (packInstr m) t := by
  obtain ⟨-, hc⟩ | ⟨-, -, ⟨i, -, hc⟩ | ⟨-, hc⟩ | ⟨ps, -, hc⟩⟩ := packCommand_cases cfg m s
  · rw [hc] at h; cases h
    exact s.raised_writes _ rfl
  · rw [hc] at h; cases h
  · rw [hc] at h; cases h
    exact s.raised_writes _ rfl
  · rw [hc] at h; cases h
    cases m <;> rfl

theorem unpackCommand_writes (h : unpackCommand cfg m s = .next t) : t = s.withWritesOf (unpackInstr m) t := by
  obtain hc | hc | ⟨i, -, hc⟩ | ⟨-, -, -, -, -, bytes, -, hc⟩ := unpackCommand_cases cfg m s
  · rw [hc] at h; cases h
    exact s.raised_writes _ rfl
  · rw [hc] at h; cases h
    exact s.raised_writes _ rfl
  · rw [hc] at h; cases h
  · rw [hc] at h; cases h
    cases m <;> rfl

theorem resolveCommand_writes (h : resolveCommand cfg s = .next t) : t = s.withWritesOf .resolve t := by
  obtain ⟨-, hc⟩ | ⟨-, ⟨i, -, hc⟩ | ⟨qs, k, -, -, hc⟩ | ⟨qs, cs, -, -, hc⟩⟩ := resolveCommand_cases cfg s
  · rw [hc] at h; cases h
    exact s.raised_writes _ rfl
  · rw [hc] at h; cases h
  · rw [hc] at h; cases h
  · rw [hc] at h; cases h
    unfold State.resolved
    dsimp only
    split
    · rfl
    · rfl

end

theorem execSetbg_writes {v : Bool} {ink : InkCode} {s t : State} (h : execSetbg v ink s = .next t) :
    t = s.withWritesOf (.setbg v ink) t := by
  obtain ⟨-, hc⟩ | ⟨-, -, hc⟩ | ⟨-, -, hc⟩ := execSetbg_cases v ink s <;> (rw [hc] at h; cases h; rfl)

theorem setInkCommand_writes {policy : DupPenPolicy} {pen : Pen} {ink : InkCode} {s t : State}
    (h : setInkCommand policy pen ink s = .next t) : t = s.withWritesOf (.setink pen ink) t := by
  obtain ⟨-, hc⟩ | ⟨-, -, -, hc⟩ | ⟨-, -, -, hc⟩ | ⟨-, -, hc⟩ := setInkCommand_cases policy pen ink s <;>
    (rw [hc] at h; cases h; rfl)

/-- Every command writes what the table gives it and the error records, and nothing else (R29). -/
theorem exec_writes {i : Instr} {s t : State} (h : exec i s = .next t) : t = s.withWritesOf i t := by
  cases i with
  | setw | seth | setlen | setti | clrink | match3 | pack3 | unpack3 => cases h; rfl
  | setbg v ink => exact execSetbg_writes h
  | setink pen ink => exact setInkCommand_writes h
  | match0 => exact matchCommand_writes (m := .m0) h
  | match1 => exact matchCommand_writes (m := .m1) h
  | match2 => exact matchCommand_writes (m := .m2) h
  | pack0 => exact packCommand_writes (m := .m0) h
  | pack1 => exact packCommand_writes (m := .m1) h
  | pack2 => exact packCommand_writes (m := .m2) h
  | unpack0 => exact unpackCommand_writes (m := .m0) h
  | unpack1 => exact unpackCommand_writes (m := .m1) h
  | unpack2 => exact unpackCommand_writes (m := .m2) h
  | resolve => exact resolveCommand_writes h

/-- A command that leaves LASTERR at 0 has raised no error (R31, R246). -/
theorem exec_errCnt_of_lastErr_eq_zero {i : Instr} {s t : State} (h : exec i s = .next t) (h0 : t.lastErr = 0) :
    t.errCnt = s.errCnt := by
  obtain ⟨e, rfl⟩ | hc := exec_next_cases h
  · exact absurd h0 e.code_ne_zero
  · exact hc.errCnt

theorem exists_mode_iff {p : Mode → Prop} : (∃ m, p m) ↔ p .m0 ∨ p .m1 ∨ p .m2 := by
  constructor
  · rintro ⟨m, hm⟩
    cases m <;> simp [hm]
  · rintro (h | h | h)
    exacts [⟨.m0, h⟩, ⟨.m1, h⟩, ⟨.m2, h⟩]

/-- Settles O22: the clauses are the columns of the table `State.withWritesOf`, read off row by row. -/
theorem commandsWriteOnlyTheirState : Obligations.CommandsWriteOnlyTheirState := by
  intro i s t h
  have herr := exec_errCnt_of_lastErr_eq_zero h
  obtain ⟨u, rfl⟩ : ∃ u, t = s.withWritesOf i u := ⟨t, exec_writes h⟩
  simp only [exists_mode_iff, matchInstr, packInstr, unpackInstr]
  cases i <;> simpa [State.withWritesOf] using herr

end Sys2Proof.Machine

/-! ## The buffers: what keeps them in form, one element by the host, and a command's unwritten input (20_memory R60 to
R73) -/

namespace Sys2Proof.Machine

theorem memoryGood_of_mem_eq {cfg : Params} {s t : State} (hm : t.mem = s.mem) (hs : s.memoryGood cfg) :
    t.memoryGood cfg := by
  simpa only [State.memoryGood, hm] using hs

/-- A host write inside its space keeps the buffers good (R62). -/
theorem memoryGood_memWriteElem {cfg : Params} {s : State} {i : Nat} (e : Elem) (hi : i < capacity cfg e.space)
    (hs : s.memoryGood cfg) : (s.setMem (memWriteElem s.mem i e)).memoryGood cfg :=
  ⟨wf_memWriteElem i e hs.1, within_memWriteElem e hs.2 hi⟩

/-- No command touches an index at or above a capacity (R68). -/
theorem memoryGood_issueCommand {w : Word} {s t : State} (h : issueCommand w s = .next t)
    (hs : s.memoryGood Config.params) : t.memoryGood Config.params := by
  obtain rfl | ⟨-, ⟨e, rfl⟩ | hc⟩ := issueCommand_effect h
  · exact hs
  · exact memoryGood_of_mem_eq (State.raised_mem s e) hs
  · exact hc.memory hs

/-- No action of the host does (R62). -/
theorem memoryGood_hostAct {a : HostAction} {s t : State} (h : hostAct a s = .next t)
    (hs : s.memoryGood Config.params) : t.memoryGood Config.params := by
  obtain ⟨w, -, hw⟩ | ⟨i, e, -, hi, rfl⟩ | ⟨sp, i, e, -, -, rfl⟩ | ⟨n, v, -, -, rfl⟩ | ⟨-, rfl⟩ := hostAct_next_cases h
  · exact memoryGood_issueCommand hw hs
  · exact memoryGood_memWriteElem e hi hs
  · exact memoryGood_of_mem_eq rfl hs
  · exact memoryGood_of_mem_eq rfl hs
  · exact memoryGood_of_mem_eq rfl (reset_memoryGood Config.params)

/-- Settles O15: a step waits or performs one action, and each action keeps the buffers good. -/
theorem stepKeepsMemoryGood : Obligations.StepKeepsMemoryGood := by
  intro s t hs h
  obtain ⟨-, rfl⟩ | ⟨a, rest, -, ha⟩ := step_next_cases h
  · exact hs
  · exact memoryGood_hostAct ha (memoryGood_of_mem_eq (State.setHostQueue_mem s rest) hs)

/-! One element by the host. -/

theorem memReadElem_memWriteElem_same (m : Memory) (i : Nat) (e : Elem) (j : Nat) :
    memReadElem (memWriteElem m i e) e.space j = if j = i then some e else memReadElem m e.space j := by
  cases e <;> simp only [Elem.space, memReadElem, memWriteElem, memRead_memWrite] <;> split <;> rfl

theorem memReadElem_memWriteElem_other (m : Memory) (i : Nat) {e : Elem} {sp : Space} (h : sp ≠ e.space) (j : Nat) :
    memReadElem (memWriteElem m i e) sp j = memReadElem m sp j := by
  cases e <;> cases sp <;> simp [Elem.space, memReadElem, memWriteElem] at h ⊢

/-- A read after a write, over all spaces: the element written, and every other element as before (R62). -/
theorem memReadElem_memWriteElem (m : Memory) (i : Nat) (e : Elem) (sp : Space) (j : Nat) :
    memReadElem (memWriteElem m i e) sp j = if sp = e.space ∧ j = i then some e else memReadElem m sp j := by
  by_cases hsp : sp = e.space
  · subst hsp
    simp [memReadElem_memWriteElem_same]
  · simp [memReadElem_memWriteElem_other m i hsp, hsp]

section

variable {cfg : Params} {i : Nat} {s : State}

theorem hostWrite_of_lt {e : Elem} (hi : i < capacity cfg e.space) :
    hostWrite cfg i e s = .next (s.setMem (memWriteElem s.mem i e)) := if_pos hi

theorem hostWrite_of_ge {e : Elem} (hi : capacity cfg e.space ≤ i) :
    hostWrite cfg i e s = .refused (.noSuchElement e.space i) := if_neg (Nat.not_lt.2 hi)

theorem hostRead_of_written {sp : Space} {e : Elem} (hi : i < capacity cfg sp) (he : memReadElem s.mem sp i = some e) :
    hostRead cfg sp i s = .next (s.reply (.elem e)) := by
  rw [hostRead, if_pos hi, he]

theorem hostRead_of_unwritten {sp : Space} (hi : i < capacity cfg sp) (hn : memReadElem s.mem sp i = none) :
    hostRead cfg sp i s = .fault (.unwrittenElement sp i) := by
  rw [hostRead, if_pos hi, hn]

theorem hostRead_of_ge {sp : Space} (hi : capacity cfg sp ≤ i) :
    hostRead cfg sp i s = .refused (.noSuchElement sp i) := if_neg (Nat.not_lt.2 hi)

end

/-- Settles O24: the step is the host's access, one lemma a case of it. -/
theorem hostBufferAccess : Obligations.HostBufferAccess := by
  intro s i rest
  refine ⟨fun e hq hi => ?_, fun e hq hi => ?_, fun sp e hq hi he => ?_, fun sp hq hi hn => ?_, fun sp hq hi => ?_⟩
  · exact ⟨_, (step_of_action hq).trans (hostWrite_of_lt hi), rfl, memReadElem_memWriteElem s.mem i e⟩
  · exact (step_of_action hq).trans (hostWrite_of_ge hi)
  · exact (step_of_action hq).trans (hostRead_of_written hi he)
  · exact (step_of_action hq).trans (hostRead_of_unwritten hi hn)
  · exact (step_of_action hq).trans (hostRead_of_ge hi)

/-! A command whose input has an unwritten element, no error condition before it. -/

section

variable {cfg : Params} {m : Mode} {s : State} {i : Nat}

theorem matchCommand_of_unwritten (hg : s.gridSize ≤ cfg.capGrid) (hr : memReadBlock s.mem.pix s.gridSize = .error i) :
    matchCommand cfg m s = .fault (.unwrittenElement .pix i) := by
  rw [matchCommand, if_neg (Nat.not_lt.2 hg), hr]

theorem packCommand_of_unwritten (hg : s.gridSize ≤ cfg.capGrid) (hp : s.packedSize m ≤ cfg.capDat)
    (hr : scanPens s.mem.idx (ncol m) s.gridSize = .unwritten i) :
    packCommand cfg m s = .fault (.unwrittenElement .idx i) := by
  rw [packCommand, if_neg (by omega), hr]

theorem unpackCommand_of_unwritten (hl : s.len.toNat ≤ cfg.capDat) (hw : s.width ≠ 0)
    (hwhole : s.len.toNat % bytesPerRow m s.width.toNat = 0) (hh : s.derivedHeight m ≤ 65535)
    (hg : s.width.toNat * s.derivedHeight m ≤ cfg.capGrid) (hr : memReadBlock s.mem.dat s.len.toNat = .error i) :
    unpackCommand cfg m s = .fault (.unwrittenElement .dat i) := by
  rw [unpackCommand, if_neg (by omega), if_neg hw, if_neg (by omega), if_neg (by omega), hr]

theorem resolveCommand_of_unwritten (hg : s.gridSize ≤ cfg.capGrid)
    (hr : memReadBlock s.mem.idx s.gridSize = .error i) :
    resolveCommand cfg s = .fault (.unwrittenElement .idx i) := by
  rw [resolveCommand, if_neg (Nat.not_lt.2 hg), hr]

/-- PACK's check stops at the first unwritten pen, those before it being pens of the mode (R156, log 7). -/
theorem scanPens_unwritten {b : Buffer Pen} {n : Nat} (hi : i < n) (hp : PensOfMode m b i) (hn : memRead b i = none) :
    scanPens b (ncol m) n = .unwritten i := by
  simpa [scanPens] using scanPensFrom_stops (m := m) b i 0 n hi (by simpa [PensOfMode] using hp) (by simpa using hn)

end

/-- Settles O52: the checks pass, and the read of the input stops at element `i`. -/
theorem unwrittenReadsFault : Obligations.UnwrittenReadsFault := by
  intro m s i _
  refine ⟨fun hi hg hw hn => ?_, fun hi hg hp hpens hn => ?_, fun hi hl hwd hwhole hh hg hw hn => ?_,
    fun hi hg hw hn => ?_⟩
  · rw [exec_matchInstr]
    exact matchCommand_of_unwritten hg (memReadBlock_unwritten hi hw hn)
  · rw [exec_packInstr]
    exact packCommand_of_unwritten hg hp (scanPens_unwritten hi hpens hn)
  · rw [exec_unpackInstr]
    exact unpackCommand_of_unwritten hl hwd hwhole hh hg (memReadBlock_unwritten hi hw hn)
  · rw [exec_resolve]
    exact resolveCommand_of_unwritten hg (memReadBlock_unwritten hi hw hn)

end Sys2Proof.Machine

/-! ## The encoding: the decoder row by row, what `encode` gives back, the table of legal words (30_encoding R90 to R97)
-/

namespace Sys2Proof

/-- The number of a field is a quotient and remainder of the word's number (R9). -/
theorem field_toNat (w : Word) (lo n : Nat) : (w.extractLsb' lo n).toNat = w.toNat / 2 ^ lo % 2 ^ n := by
  rw [BitVec.extractLsb'_toNat, Nat.shiftRight_eq_div_pow]

theorem wordField_eq_toNat (w : Word) (hi lo : Nat) : wordField w hi lo = (w.extractLsb' lo (hi - lo + 1)).toNat :=
  (field_toNat w lo (hi - lo + 1)).symm

theorem wordField_eq_zero_iff (w : Word) (hi lo : Nat) :
    wordField w hi lo = 0 ↔ w.extractLsb' lo (hi - lo + 1) = 0 := by
  rw [wordField_eq_toNat, ← BitVec.toNat_inj, BitVec.ofNat_eq_ofNat, BitVec.toNat_ofNat, Nat.zero_mod]

theorem whenZero_eq_ok_iff {z : Bool} {op : BitVec 4} {j i : Instr} :
    whenZero z op j = .ok i ↔ z = true ∧ j = i := by
  cases z <;> simp [whenZero]

/-- The decoder as a table, its rows in the order of R96: OP, the fields that must be zero, the instruction read. -/
theorem decode_eq_ok_iff {w : Word} {i : Instr} :
    decode w = .ok i ↔
      let op := (w.extractLsb' 28 4).toNat
      let m := w.extractLsb' 26 2
      op = 1 ∧ w.extractLsb' 16 12 = 0 ∧ .setw (w.extractLsb' 0 16) = i ∨
      op = 2 ∧ w.extractLsb' 16 12 = 0 ∧ .seth (w.extractLsb' 0 16) = i ∨
      op = 3 ∧ w.extractLsb' 24 4 = 0 ∧ .setlen (w.extractLsb' 0 24) = i ∨
      op = 4 ∧ w.extractLsb' 5 23 = 0 ∧ .setti (w.extractLsb' 4 1 == 1) (w.extractLsb' 0 4) = i ∨
      op = 5 ∧ w.extractLsb' 6 22 = 0 ∧ .setbg (w.extractLsb' 5 1 == 1) (w.extractLsb' 0 5) = i ∨
      op = 6 ∧ (w.extractLsb' 12 16 = 0 ∧ w.extractLsb' 5 3 = 0) ∧
        .setink (w.extractLsb' 8 4) (w.extractLsb' 0 5) = i ∨
      op = 7 ∧ w.extractLsb' 0 28 = 0 ∧ .clrink = i ∨
      op = 11 ∧ w.extractLsb' 0 28 = 0 ∧ .resolve = i ∨
      op = 8 ∧ w.extractLsb' 0 26 = 0 ∧ selectMode m .match0 .match1 .match2 .match3 = i ∨
      op = 9 ∧ w.extractLsb' 0 26 = 0 ∧ selectMode m .pack0 .pack1 .pack2 .pack3 = i ∨
      op = 10 ∧ w.extractLsb' 0 26 = 0 ∧ selectMode m .unpack0 .unpack1 .unpack2 .unpack3 = i := by
  unfold decode
  dsimp only
  split
  case h_12 => simp_all
  all_goals
    next hop => simp [whenZero_eq_ok_iff, hop]

/-- The decoder gives every instruction's word its instruction back (R92 to R97). -/
theorem decode_encode : (i : Instr) → decode (encode i) = .ok i
  | .setw n => Laws.RoundTrip.setw n
  | .seth n => Laws.RoundTrip.seth n
  | .setlen n => Laws.RoundTrip.setlen n
  | .setti v idx => Laws.RoundTrip.setti v idx
  | .setbg v ink => Laws.RoundTrip.setbg v ink
  | .setink pen ink => Laws.RoundTrip.setink pen ink
  | .clrink => Laws.RoundTrip.clrink
  | .match0 => Laws.RoundTrip.match0
  | .match1 => Laws.RoundTrip.match1
  | .match2 => Laws.RoundTrip.match2
  | .match3 => Laws.RoundTrip.match3
  | .pack0 => Laws.RoundTrip.pack0
  | .pack1 => Laws.RoundTrip.pack1
  | .pack2 => Laws.RoundTrip.pack2
  | .pack3 => Laws.RoundTrip.pack3
  | .unpack0 => Laws.RoundTrip.unpack0
  | .unpack1 => Laws.RoundTrip.unpack1
  | .unpack2 => Laws.RoundTrip.unpack2
  | .unpack3 => Laws.RoundTrip.unpack3
  | .resolve => Laws.RoundTrip.resolve

/-- Settles O1: one lemma a constructor. -/
theorem decodeOfEncodeIsInstruction : Obligations.DecodeOfEncodeIsInstruction := decode_encode

/-- The one-bit field V as the number `encode` adds for it (R92). -/
theorem toNat_beq_one (b : BitVec 1) : (b == 1#1).toNat = b.toNat := by
  revert b; decide

/-- MATCH, PACK and UNPACK hold M in bits 27 and 26 (R94, R97). -/
theorem encode_selectMode (m : BitVec 2) :
    encode (selectMode m .match0 .match1 .match2 .match3) = BitVec.ofNat 32 (0x80000000 + m.toNat * 2 ^ 26) ∧
    encode (selectMode m .pack0 .pack1 .pack2 .pack3) = BitVec.ofNat 32 (0x90000000 + m.toNat * 2 ^ 26) ∧
    encode (selectMode m .unpack0 .unpack1 .unpack2 .unpack3) = BitVec.ofNat 32 (0xA0000000 + m.toNat * 2 ^ 26) := by
  revert m; decide

/-- In each row the fields read and the fields that must be zero make up the whole word. -/
theorem encode_of_decode {w : Word} {i : Instr} (h : decode w = .ok i) : encode i = w := by
  have hw := w.isLt
  obtain ⟨hop, hz, rfl⟩ | ⟨hop, hz, rfl⟩ | ⟨hop, hz, rfl⟩ | ⟨hop, hz, rfl⟩ | ⟨hop, hz, rfl⟩ | ⟨hop, hz, rfl⟩ |
    ⟨hop, hz, rfl⟩ | ⟨hop, hz, rfl⟩ | ⟨hop, hz, rfl⟩ | ⟨hop, hz, rfl⟩ | ⟨hop, hz, rfl⟩ := decode_eq_ok_iff.1 h
  all_goals
    simp only [↓encode_selectMode, encode, toNat_beq_one, ← BitVec.toNat_inj, field_toNat, BitVec.ofNat_eq_ofNat,
      BitVec.toNat_ofNat] at hop hz ⊢
    omega

/-- Settles O2: the sum that `encode` forms is that of the word's own fields. -/
theorem encodeOfDecodeIsWord : Obligations.EncodeOfDecodeIsWord := fun _ _ => encode_of_decode

/-- The rows of `legalRows` are those of the decoder (R96). -/
theorem legalWord_iff_decode_ok (w : Word) : legalWord w = true ↔ ∃ i, decode w = .ok i := by
  simp [decode_eq_ok_iff, exists_or, legalWord, legalRows, wordField_eq_zero_iff, wordField_eq_toNat w 31 28]

theorem exists_decode_error_of_not_legalWord {w : Word} (h : legalWord w = false) : ∃ r, decode w = .error r := by
  cases hd : decode w with
  | error r => exact ⟨r, rfl⟩
  | ok i => simp [(legalWord_iff_decode_ok w).2 ⟨i, hd⟩] at h

/-- Settles O4: each word is evaluated. -/
theorem wordsOfTheTableDecode : Obligations.WordsOfTheTableDecode :=
  ⟨rfl, rfl, rfl, rfl, rfl, rfl, rfl, rfl, rfl, rfl, rfl, rfl⟩

end Sys2Proof

/-! ## The decode procedure of a command word (30_encoding R95, R97) -/

namespace Sys2Proof.Machine

section

variable {s : State} {w : Word}

theorem issueCommand_of_decode_ok {i : Instr} (hf : s.fatal = false) (hd : decode w = .ok i) :
    issueCommand w s = exec i s := by
  simp [issueCommand, hf, hd]

theorem issueCommand_of_decode_error {r : DecodeReject} (hf : s.fatal = false) (hd : decode w = .error r) :
    issueCommand w s = raise .illegal s := by
  simp [issueCommand, hf, hd]

end

/-- Settles O5: the step takes the word off the queue, and the decode procedure runs what it decodes to. -/
theorem stepRunsDecodedCommand : Obligations.StepRunsDecodedCommand := by
  intro s w rest i hf hq hd
  exact (step_of_action hq).trans (issueCommand_of_decode_ok hf hd)

/-- Settles O3: the table is the decoder's domain, and what the decoder rejects raises E_ILLEGAL. -/
theorem illegalWordsRaiseIllegal : Obligations.IllegalWordsRaiseIllegal := by
  refine ⟨legalWord_iff_decode_ok, fun s w rest hf hq hw => ?_⟩
  obtain ⟨r, hr⟩ := exists_decode_error_of_not_legalWord hw
  calc step s
    _ = raise .illegal (s.setHostQueue rest) :=
      (step_of_action hq).trans (issueCommand_of_decode_error hf hr)
    _ = _ := congrArg Host.Outcome.next (State.raised_isolating _ .illegal hf (by decide))

/-- The fatal error sets FATAL with the records and changes nothing else (R246, R249). -/
theorem State.raised_mode (s : State) :
    s.raised .mode =
      { s with
        lastErr := 1
        errCnt := countError s.errCnt
        diag := s.diag ++ [0x01]
        fatal := true } := by
  simp [State.raised, ErrorKind.isFatal, ErrorKind.code, ErrorKind.event]

/-- Settles O10: M = 3 raises E_MODE before anything is read. -/
theorem modeThreeIsFatal : Obligations.ModeThreeIsFatal := by
  rintro s i - (rfl | rfl | rfl)
  all_goals exact congrArg Host.Outcome.next s.raised_mode

end Sys2Proof.Machine

/-! ## The assembler: the words of its lines and the operands it refuses (30_encoding R100, R101) -/

namespace Sys2Proof.Machine

theorem assemble_of_wellFormed {l : AsmLine} (h : l.wellFormed = true) : assemble l = some (asmWords l) := if_pos h

theorem assemble_eq_none_iff {l : AsmLine} : assemble l = none ↔ l.wellFormed = false := by
  simp [assemble]

/-- An operand given at its field's width is in the field's range. -/
theorem toNat_le_max {n : Nat} (x : BitVec n) : x.toNat ≤ 2 ^ n - 1 := Nat.le_pred_of_lt x.isLt

/-- Settles O25: in its range a line is the words `encode` gives, which are the same sums; beyond it the line is not
well formed. -/
theorem assemblerWords : Obligations.AssemblerWords := by
  refine ⟨fun n => ?_, fun n => ?_, fun n => ?_, fun idx => ?_, rfl, fun ink => ?_, rfl, fun pen ink => ?_, rfl, rfl,
    rfl, rfl, rfl, ?_, ?_, ?_, ?_, ?_, ?_⟩
  · exact assemble_of_wellFormed (decide_eq_true (toNat_le_max n))
  · exact assemble_of_wellFormed (decide_eq_true (toNat_le_max n))
  · exact assemble_of_wellFormed (decide_eq_true (toNat_le_max n))
  · exact assemble_of_wellFormed (decide_eq_true (toNat_le_max idx))
  · exact assemble_of_wellFormed (decide_eq_true (toNat_le_max ink))
  · have hrange : (AsmLine.setink pen.toNat ink.toNat).wellFormed = true := by
      simpa [AsmLine.wellFormed] using And.intro (toNat_le_max pen) (toNat_le_max ink)
    exact ⟨assemble_of_wellFormed hrange, assemble_of_wellFormed hrange⟩
  · rintro m k rfl
    cases m <;> exact ⟨rfl, rfl, rfl, rfl, rfl⟩
  all_goals
    intro n hn
    simp [assemble_eq_none_iff, AsmLine.wellFormed, hn]

end Sys2Proof.Machine

/-! ## The colour matcher in a run: the distance as integers, one pixel, one MATCH command, the one warning
(40_color_matcher R122 to R130) -/

namespace Sys2Proof.Machine

theorem Warning.code_eq_palette_iff (w : Warning) : w.code = Warning.palette.code ↔ w = .palette := by
  cases w <;> decide

theorem oneShot_of_sameRecords {s t : State} (h : SameRecords s t) (hs : s.oneShot) : t.oneShot := by
  simpa only [State.oneShot, h.diag, h.warned] using hs

/-- An error's event is no warning, and raising it leaves WARNED alone. -/
theorem oneShot_raised {s : State} (e : ErrorKind) (hs : s.oneShot) : (s.raised e).oneShot := by
  have hcount : (s.diag ++ [e.event]).count Warning.palette.code = s.diag.count Warning.palette.code := by
    simp [e.event_ne_code .palette]
  exact hcount.trans hs

/-- W_PALETTE is the event only of a command that finds WARNED clear and sets it (R125). -/
theorem oneShot_completed {s t : State} (h : Completed s t) (hs : s.oneShot) : t.oneShot := by
  unfold State.oneShot at hs ⊢
  obtain ⟨hd, hw⟩ | ⟨w, hne, hd, hw⟩ | ⟨hclear, hset, hd⟩ := h.events
  · rw [hd, hw, hs]
  · have hother : w.code ≠ Warning.palette.code := mt w.code_eq_palette_iff.1 hne
    rw [hd, hw, ← hs]
    simp [hother]
  · simp [hd, hset, hclear, hs]

/-- Settles O17: the warning joins the trace together with WARNED, and nothing else emits it. -/
theorem stepKeepsOneShotWarning : Obligations.StepKeepsOneShotWarning := fun _ _ =>
  step_keeps_of_records oneShot_of_sameRecords reset_oneShot (fun e _ => oneShot_raised e) fun _ => oneShot_completed

/-- Settles O33: the three parts of the search's invariant, over the whole palette. -/
theorem nearestIsLowestIndexMinimum : Obligations.NearestIsLowestIndexMinimum := by
  intro cfg m c
  obtain ⟨hattained, hleast, hlowest⟩ := nearest_firstNearest cfg m c
  exact ⟨nearest_index_lt cfg m c, hattained, fun j q hj => ⟨hleast j q hj, hlowest j q hj⟩⟩

/-- Settles O36: the re-matched pixel is opaque, so it is off the override path, and its colour is an entry. -/
theorem matchingIsIdempotent : Obligations.MatchingIsIdempotent := by
  intro cfg m tink px c hdistinct hc
  obtain ⟨hpen, hexact⟩ :=
    exactColourMatchesItsEntry cfg m tink _ { r := c.r, g := c.g, b := c.b, a := 255 } hdistinct (by simp) hc
  exact Prod.ext (BitVec.eq_of_toNat_eq hpen) hexact

/-! One MATCH command. -/

/-- Some value of a block read from element 0 has a property exactly if some element of its range holds one (R68). -/
theorem exists_mem_iff_of_memReadBlock {α : Type} {b : Buffer α} {n : Nat} {vs : List α} {p : α → Prop}
    (h : memReadBlock b n = .ok vs) : (∃ v ∈ vs, p v) ↔ ∃ i v, i < n ∧ memRead b i = some v ∧ p v := by
  obtain ⟨rfl, hk⟩ := (memReadBlock_ok_iff b n vs).1 h
  constructor
  · rintro ⟨v, hv, hp⟩
    obtain ⟨i, hi, rfl⟩ := List.getElem_of_mem hv
    exact ⟨i, vs[i], hi, (hk i hi).trans (List.getElem?_eq_getElem hi), hp⟩
  · rintro ⟨i, v, hi, hv, hp⟩
    exact ⟨v, List.mem_of_getElem? ((hk i hi).symm.trans hv), hp⟩

section

variable {cfg : Params} {m : Mode} {s : State} {pxs : List Pixel}

/-- The pen of each pixel of the grid goes to its element of IDX (R126). -/
theorem State.matched_idx {i : Nat} {px : Pixel} (h : pxs[i]? = some px) :
    memRead (s.matched cfg m pxs).mem.idx i = some (matchPx cfg m s.tink px).1 := by
  have hi : i < pxs.length := (List.getElem?_eq_some_iff.1 h).1
  rw [(State.matched_fields s cfg m pxs).1, memRead_memWriteBlock, if_pos (by simpa using hi)]
  simp [h]

/-- The elements of IDX above the grid stay (R68). -/
theorem State.matched_idx_above {i : Nat} (h : pxs.length ≤ i) :
    memRead (s.matched cfg m pxs).mem.idx i = memRead s.mem.idx i := by
  rw [(State.matched_fields s cfg m pxs).1]
  exact memRead_memWriteBlock_ge _ _ (by simpa using h)

/-- The first out-of-palette pixel of the run sets WARNED and emits W_PALETTE (R125). -/
theorem State.matched_warning (h : (∃ px ∈ pxs, (matchPx cfg m s.tink px).2 = true) ∧ s.warned = false) :
    (s.matched cfg m pxs).warned = true ∧ (s.matched cfg m pxs).diag = s.diag ++ [Warning.palette.code] := by
  obtain ⟨hinexact, hclear⟩ := h
  have hany : (pxs.map (matchPx cfg m s.tink)).any Prod.snd = true := by simpa using hinexact
  simp [State.matched, hany, hclear]

/-- Without one, or with WARNED set already, MATCH.m is silent (R125). -/
theorem State.matched_silent (h : ¬((∃ px ∈ pxs, (matchPx cfg m s.tink px).2 = true) ∧ s.warned = false)) :
    (s.matched cfg m pxs).warned = s.warned ∧ (s.matched cfg m pxs).diag = s.diag := by
  unfold State.matched
  dsimp only
  split
  case isTrue hany =>
    have hset : s.warned = true := by
      by_contra hclear
      exact h ⟨by simpa using hany, by simpa using hclear⟩
    simp [hset]
  case isFalse => exact ⟨rfl, rfl⟩

theorem matchCommand_of_capacity (h : cfg.capGrid < s.gridSize) :
    matchCommand cfg m s = .next (s.raised .capacity) := if_pos h

end

/-- MATCH.m writes IDX, WARNED and the records (R29). -/
theorem State.withWritesOf_matchInstr (m : Mode) (s t : State) :
    s.withWritesOf (matchInstr m) t =
      { s with
        mem := { s.mem with idx := t.mem.idx }
        warned := t.warned
        diag := t.diag
        errCnt := t.errCnt
        lastErr := t.lastErr } := by
  cases m <;> rfl

/-- Settles O37: a grid that is too large raises its error, and a written one is read, matched pixel by pixel and
completed, with what `State.withWritesOf` allows as the frame. -/
theorem matchCommandResult : Obligations.MatchCommandResult := by
  intro m s hf
  rw [exec_matchInstr]
  refine ⟨fun hcap => ?_, fun hg hwritten => ?_⟩
  · rw [matchCommand_of_capacity hcap, s.raised_isolating .capacity hf (by decide)]
    rfl
  · obtain ⟨pxs, hread⟩ := memReadBlock_of_written hwritten
    obtain ⟨hlen, hpxs⟩ := (memReadBlock_ok_iff _ _ _).1 hread
    have hexec := matchCommand_of_read (m := m) hg hread
    have hframe := matchCommand_writes hexec
    obtain ⟨-, -, herr, -⟩ := State.matched_fields s Config.params m pxs
    rw [State.withWritesOf_matchInstr, State.setLastErr_errCnt, herr] at hframe
    simp only [← exists_mem_iff_of_memReadBlock hread]
    exact ⟨_, hexec, fun i px hi hpx => State.matched_idx ((hpxs i hi).symm.trans hpx),
      fun i hi => State.matched_idx_above (hlen.trans_le hi), State.matched_warning, State.matched_silent, hframe⟩

/-! The squared distance and one pixel. -/

/-- A channel's square is that of the signed difference (R122). -/
theorem sqDiff_cast (x y : Channel) : (sqDiff x y : Int) = ((x.toNat : Int) - y.toNat) ^ 2 := by
  rw [sqDiff, Int.toNat_of_nonneg (mul_self_nonneg _), sq]

/-- A channel difference lies in -255..255 (R122). -/
theorem channelDiff_sq_le (x y : Channel) : ((x.toNat : Int) - y.toNat) ^ 2 ≤ 65025 := by
  have hx := x.isLt
  have hy := y.isLt
  exact sq_le_sq' (a := (x.toNat : Int) - y.toNat) (b := 255) (by omega) (by omega)

/-- Settles O32: channel by channel. -/
theorem squaredDistanceIsExact : Obligations.SquaredDistanceIsExact := by
  intro c q
  have hr := channelDiff_sq_le c.r q.r
  have hg := channelDiff_sq_le c.g q.g
  have hb := channelDiff_sq_le c.b q.b
  have hsum : (dist2 c q : Int) = ((c.r.toNat : Int) - q.r.toNat) ^ 2 + ((c.g.toNat : Int) - q.g.toNat) ^ 2 +
      ((c.b.toNat : Int) - q.b.toNat) ^ 2 := by
    simp only [dist2, Nat.cast_add, sqDiff_cast]
  exact ⟨hsum, hr, hg, hb, by omega, dist2_eq_zero_iff c q⟩

/-- Settles O34: the two paths of `match_px`. -/
theorem matchOfOnePixel : Obligations.MatchOfOnePixel := by
  intro cfg m tink px
  refine ⟨matchPx_of_override, fun hpath => ?_⟩
  rw [matchPx_of_not_override hpath]
  exact ⟨nearest_pen_toNat cfg m (Pixel.rgb px), decide_eq_true_iff⟩

end Sys2Proof.Machine

/-! ## The interleave of one byte (41_pixel_packer R151 to R153, 42_pixel_unpacker R181) -/

namespace Sys2Proof.Machine

/-! The two tables of R151 are inverse to each other, so each of them is a bijection (R152 (c)). -/

theorem byteBitOrigin_length (m : Mode) : (byteBitOrigin m).length = 8 := by cases m <;> rfl

/-- The second table of R151, read through the first: `posBit` leads back to the byte bit. -/
theorem posBit_of_byteBitOrigin {m : Mode} {i k j : Nat} (h : (byteBitOrigin m)[i]? = some (k, j)) :
    k < ppb m ∧ j < bpp m ∧ posBit m k j = 7 - i := by
  have hi : i < 8 := byteBitOrigin_length m ▸ (List.getElem?_eq_some_iff.1 h).1
  have table : ∀ i, i < 8 → ∀ o ∈ (byteBitOrigin m)[i]?, o.1 < ppb m ∧ o.2 < bpp m ∧ posBit m o.1 o.2 = 7 - i := by
    cases m <;> decide
  exact table i hi (k, j) h

/-- The first table of R151, read through the second: `byteBitOrigin` leads back to slot and pen bit. -/
theorem byteBitOrigin_posBit {m : Mode} {k j : Nat} (hk : k < ppb m) (hj : j < bpp m) :
    posBit m k j < 8 ∧ (byteBitOrigin m)[7 - posBit m k j]? = some (k, j) := by
  have table : ∀ k, k < ppb m → ∀ j, j < bpp m →
      posBit m k j < 8 ∧ (byteBitOrigin m)[7 - posBit m k j]? = some (k, j) := by
    cases m <;> decide
  exact table k hk j hj

theorem posBit_injective {m : Mode} {k j k' j' : Nat} (hk : k < ppb m) (hj : j < bpp m) (hk' : k' < ppb m)
    (hj' : j' < bpp m) (h : posBit m k j = posBit m k' j') : k = k' ∧ j = j' := by
  have hsame : some (k, j) = some (k', j') := by
    rw [← (byteBitOrigin_posBit hk hj).2, h, (byteBitOrigin_posBit hk' hj').2]
  simpa using hsame

theorem posBit_surjective (m : Mode) {p : Nat} (hp : p < 8) : ∃ k j, k < ppb m ∧ j < bpp m ∧ posBit m k j = p := by
  have hi : 7 - p < (byteBitOrigin m).length := by rw [byteBitOrigin_length]; omega
  obtain ⟨hk, hj, hpos⟩ := posBit_of_byteBitOrigin (List.getElem?_eq_getElem hi)
  exact ⟨_, _, hk, hj, by omega⟩

/-- Settles O39: the second table of R151 is the inverse of the first. -/
theorem interleaveIsBijective : Obligations.InterleaveIsBijective := fun m =>
  ⟨fun _ _ hk hj => (byteBitOrigin_posBit hk hj).1, fun _ _ _ _ => posBit_injective, fun _ => posBit_surjective m⟩

/-! One bit of a packed byte and of an unpacked pen. -/

/-- A run of bit assignments leaves `x` at bit `q` if every assignment to it is of `x`, and there is one or the bit was
`x` before. -/
theorem getLsbD_foldl_putBit {α : Type} {n q : Nat} {x : Bool} (pos : α → Nat) (bit : α → Bool) (hq : q < n)
    (l : List α) (v : BitVec n) (hval : ∀ a ∈ l, pos a = q → bit a = x)
    (hset : (∃ a ∈ l, pos a = q) ∨ v.getLsbD q = x) :
    (l.foldl (fun v a => putBit v (pos a) (bit a)) v).getLsbD q = x := by
  induction l generalizing v with
  | nil => simpa using hset
  | cons a l ih =>
    refine ih _ (fun b hb => hval b (List.mem_cons_of_mem a hb)) ?_
    by_cases ha : pos a = q
    · right
      rw [getLsbD_putBit, if_pos ⟨ha.symm, ha ▸ hq⟩]
      exact hval a List.mem_cons_self ha
    · obtain ⟨b, hb, hbq⟩ | hv := hset
      · obtain rfl | hb := List.mem_cons.1 hb
        · exact absurd hbq ha
        · exact .inl ⟨b, hb, hbq⟩
      · right
        rwa [getLsbD_putBit, if_neg fun h => ha h.1.symm]

/-- The two loops of `pack_byte` as one, over the pairs of slot and pen bit (R153). -/
theorem packByte_eq_foldl (m : Mode) (ch : Nat → Pen) :
    packByte m ch = (List.range (ppb m) ×ˢ List.range (bpp m)).foldl
      (fun b kj => putBit b (posBit m kj.1 kj.2) ((ch kj.1).getLsbD kj.2)) 0 := by
  simp only [SProd.sprod, List.product, List.foldl_flatMap, List.foldl_map]
  rfl

/-- Each pen bit stands in the packed byte where the table puts it (R153). -/
theorem getLsbD_packByte_posBit {m : Mode} (ch : Nat → Pen) {k j : Nat} (hk : k < ppb m) (hj : j < bpp m) :
    (packByte m ch).getLsbD (posBit m k j) = (ch k).getLsbD j := by
  rw [packByte_eq_foldl]
  refine getLsbD_foldl_putBit (fun kj : Nat × Nat => posBit m kj.1 kj.2) (fun kj => (ch kj.1).getLsbD kj.2)
    (byteBitOrigin_posBit hk hj).1 _ _ ?_ (.inl ⟨(k, j), by simp [hk, hj], rfl⟩)
  rintro ⟨k', j'⟩ hmem hpos
  obtain ⟨hk', hj'⟩ : k' < ppb m ∧ j' < bpp m := by simpa using hmem
  obtain ⟨rfl, rfl⟩ := posBit_injective hk' hj' hk hj hpos
  rfl

theorem bpp_le_four (m : Mode) : bpp m ≤ 4 := by cases m <;> decide

/-- Bit `j` of an unpacked pen is the byte bit of the table, and zero above the pen's bits (R181, R186). -/
theorem getLsbD_unpackByte (m : Mode) (b : Byte) (k j : Nat) :
    (unpackByte m b k).getLsbD j = (decide (j < bpp m) && b.getLsbD (posBit m k j)) := by
  by_cases hj : j < 4
  · refine getLsbD_foldl_putBit id (fun j => b.getLsbD (posBit m k j)) hj _ _ ?_ ?_
    · rintro i hi rfl
      simp [List.mem_range.1 hi]
    · by_cases hb : j < bpp m
      · exact .inl ⟨j, List.mem_range.2 hb, rfl⟩
      · exact .inr (by simp [hb])
  · have hb : ¬ j < bpp m := fun h => hj (h.trans_le (bpp_le_four m))
    simp [BitVec.getLsbD_of_ge _ _ (Nat.le_of_not_lt hj), hb]

/-- Settles O40: the byte bit that the second table names is the one the first gives its slot and pen bit. -/
theorem packedByteBits : Obligations.PackedByteBits := by
  intro m ch i k j _ horigin
  obtain ⟨hk, hj, hpos⟩ := posBit_of_byteBitOrigin horigin
  rw [← hpos, getLsbD_packByte_posBit ch hk hj]

/-! The closed form of the table (R151). -/

theorem posBit_m0 : ∀ k, k < 2 →
    posBit .m0 k 0 = 7 - k ∧ posBit .m0 k 1 = 3 - k ∧ posBit .m0 k 2 = 5 - k ∧ posBit .m0 k 3 = 1 - k := by decide

theorem posBit_m1 : ∀ k, k < 4 → posBit .m1 k 0 = 7 - k ∧ posBit .m1 k 1 = 3 - k := by decide

theorem posBit_m2 : ∀ k, k < 8 → posBit .m2 k 0 = 7 - k := by decide

/-- Settles O41: mode by mode, pen bit by pen bit, from the closed form of the table. -/
theorem unpackedPenBits : Obligations.UnpackedPenBits := by
  intro b k j
  refine ⟨fun hk => ?_, fun hk => ?_, fun hk => ?_⟩
  · rw [getLsbD_unpackByte]
    rcases j with _ | j <;> simp [bpp, posBit_m2 k hk]
  · obtain ⟨h0, h1⟩ := posBit_m1 k hk
    rw [getLsbD_unpackByte]
    rcases j with _ | _ | j <;> simp [bpp, h0, h1]
  · obtain ⟨h0, h1, h2, h3⟩ := posBit_m0 k hk
    rw [getLsbD_unpackByte]
    rcases j with _ | _ | _ | _ | j <;> simp [bpp, h0, h1, h2, h3, Nat.add_assoc]

/-- The pens of a mode are those without a bit from `bpp m` up (R2). -/
theorem toNat_lt_ncol_iff {m : Mode} {p : Pen} : p.toNat < ncol m ↔ ∀ j, bpp m ≤ j → p.getLsbD j = false := by
  have hncol : ncol m = 2 ^ bpp m := by cases m <;> rfl
  rw [hncol]
  exact ⟨fun h j hj => Nat.testBit_lt_two_pow (h.trans_le (Nat.pow_le_pow_right (by decide) hj)),
    Nat.lt_pow_two_of_testBit _⟩

theorem packByte_unpackByte (m : Mode) (b : Byte) : packByte m (unpackByte m b) = b := by
  refine BitVec.eq_of_getLsbD_eq fun p hp => ?_
  obtain ⟨k, j, hk, hj, rfl⟩ := posBit_surjective m hp
  simp [getLsbD_packByte_posBit _ hk hj, getLsbD_unpackByte, hj]

theorem unpackByte_toNat_lt (m : Mode) (b : Byte) (k : Nat) : (unpackByte m b k).toNat < ncol m :=
  toNat_lt_ncol_iff.2 fun j hj => by simp [getLsbD_unpackByte, hj]

theorem unpackByte_packByte {m : Mode} {ch : Nat → Pen} {k : Nat} (hk : k < ppb m) (hpen : (ch k).toNat < ncol m) :
    unpackByte m (packByte m ch) k = ch k := by
  refine BitVec.eq_of_getLsbD_eq fun j _ => ?_
  rw [getLsbD_unpackByte]
  by_cases hj : j < bpp m
  · simp [hj, getLsbD_packByte_posBit ch hk hj]
  · simp [hj, toNat_lt_ncol_iff.1 hpen j (Nat.le_of_not_lt hj)]

/-- Settles O42: bit by bit, the table read in both directions. -/
theorem packAndUnpackByteAreInverse : Obligations.PackAndUnpackByteAreInverse := fun m =>
  ⟨packByte_unpackByte m, fun b k _ => unpackByte_toNat_lt m b k, fun _ hpens k hk =>
    unpackByte_packByte hk (hpens k hk)⟩

end Sys2Proof.Machine

/-! ## One PACK command (41_pixel_packer R154 to R160) -/

namespace Sys2Proof.Machine

section

variable {cfg : Params} {m : Mode} {s : State}

/-- PACK's check of a written grid raises on any pen that is no pen of the mode, wherever it stands (R156, R160). -/
theorem scanPens_outOfRange_of_written {b : Buffer Pen} {bound n : Nat} (hwritten : Written b n)
    (hbad : ∃ i p, i < n ∧ memRead b i = some p ∧ bound ≤ p.toNat) : scanPens b bound n = .outOfRange := by
  cases hscan : scanPens b bound n with
  | unwritten i =>
    obtain ⟨-, hi, hnone⟩ := scanPensFrom_unwritten hscan
    obtain ⟨p, hp⟩ := hwritten i (by omega)
    simp [hnone] at hp
  | outOfRange => rfl
  | pens ps =>
    obtain ⟨i, p, hi, hp, hge⟩ := hbad
    obtain ⟨q, hq, hlt, -⟩ := ((scanPens_pens_iff b bound n ps).1 hscan).2 i hi
    obtain rfl : p = q := Option.some.inj (hp.symm.trans hq)
    omega

/-- Every 4-bit element is a pen of mode 0 (R157). -/
theorem scanPens_m0_ne_outOfRange (b : Buffer Pen) (n : Nat) : scanPens b (ncol .m0) n ≠ .outOfRange := by
  intro h
  obtain ⟨-, p, -, -, hge, -⟩ := scanPensFrom_outOfRange h
  exact absurd p.isLt (Nat.not_lt.2 hge)

theorem packCommand_of_capacity (h : cfg.capGrid < s.gridSize ∨ cfg.capDat < s.packedSize m) :
    packCommand cfg m s = .next (s.raised .capacity) := if_pos h

theorem packCommand_of_outOfRange (hg : s.gridSize ≤ cfg.capGrid) (hd : s.packedSize m ≤ cfg.capDat)
    (h : scanPens s.mem.idx (ncol m) s.gridSize = .outOfRange) :
    packCommand cfg m s = .next (s.raised .index) := by
  rw [packCommand, if_neg (by omega), h]
  rfl

/-- The elements of DAT above the packed grid stay (R68). -/
theorem State.packed_dat_above (s : State) (m : Mode) (ps : List Pen) {j : Nat} (h : s.packedSize m ≤ j) :
    memRead (s.packed m ps).mem.dat j = memRead s.mem.dat j :=
  memRead_memWriteBlock_ge _ _ ((packGrid_length m _ _ ps).trans_le h)

/-- A size that fits DAT fits LEN (R8). -/
theorem State.packed_len (ps : List Pen) (h : s.packedSize m ≤ cfg.capDat) :
    (s.packed m ps).len.toNat = s.packedSize m :=
  Nat.mod_eq_of_lt (h.trans_lt (capDat_lt cfg))

end

/-- PACK.m writes DAT, LEN and the records (R29). -/
theorem State.withWritesOf_packInstr (m : Mode) (s t : State) :
    s.withWritesOf (packInstr m) t =
      { s with
        mem := { s.mem with dat := t.mem.dat }
        len := t.len
        diag := t.diag
        errCnt := t.errCnt
        lastErr := t.lastErr } := by
  cases m <;> rfl

/-- Settles O43: the checks in their order, each raising its error, and then the bytes of the pens that were read, with
what `State.withWritesOf` allows as the frame. -/
theorem packCommandResult : Obligations.PackCommandResult := by
  intro m s hf
  rw [exec_packInstr]
  refine ⟨fun hcap => ?_, fun hg hd hwritten hbad => ?_, fun hg hd hpens => ?_⟩
  · rw [packCommand_of_capacity hcap, s.raised_isolating .capacity hf (by decide)]
    rfl
  · rw [packCommand_of_outOfRange hg hd (scanPens_outOfRange_of_written hwritten hbad),
      s.raised_isolating .index hf (by decide)]
    rfl
  · obtain ⟨ps, hscan⟩ := scanPens_of_pensOfMode hpens
    have hread : ∀ k, k < s.gridSize → memRead s.mem.idx k = ps[k]? := by
      intro k hk
      obtain ⟨p, hp, -, hps⟩ := ((scanPens_pens_iff _ _ _ ps).1 hscan).2 k hk
      exact hp.trans hps.symm
    have hexec := packCommand_of_pens hg hd hscan
    have hframe := packCommand_writes hexec
    rw [State.withWritesOf_packInstr] at hframe
    exact ⟨_, hexec, State.packed_dat s m ps hread, fun _ => State.packed_dat_above s m ps, State.packed_len ps hd,
      hframe⟩

/-- Settles O44: of the ways a PACK command ends, only the one that mode 0 rules out leaves E_INDEX. -/
theorem packModeZeroNeverRaisesIndex : Obligations.PackModeZeroNeverRaisesIndex := by
  intro s t h
  change packCommand Config.params .m0 s = .next t at h
  obtain ⟨-, hc⟩ | ⟨-, -, ⟨i, -, hc⟩ | ⟨hscan, -⟩ | ⟨ps, -, hc⟩⟩ := packCommand_cases Config.params .m0 s
  · rw [hc] at h; cases h
    change ErrorKind.capacity.code ≠ 6
    decide
  · rw [hc] at h; cases h
  · exact absurd hscan (scanPens_m0_ne_outOfRange _ _)
  · rw [hc] at h; cases h
    change (0 : BitVec 4) ≠ 6
    decide

end Sys2Proof.Machine

/-! ## The laws of a block that is read and written back (20_memory R68), the grid and its bytes as inverse layouts, and
one UNPACK command (42_pixel_unpacker R180 to R189, R194) -/

namespace Sys2Proof.Machine

section

variable {α : Type}

/-- A block just written reads back whole (R68). -/
theorem memReadBlock_memWriteBlock (b : Buffer α) (vs : List α) :
    memReadBlock (memWriteBlock b vs) vs.length = .ok vs :=
  (memReadBlock_ok_iff _ _ _).2 ⟨rfl, fun k hk => by rw [memRead_memWriteBlock, if_pos hk]⟩

/-- Writing back the block that was read changes no element. -/
theorem memRead_memWriteBlock_of_memReadBlock {b : Buffer α} {n : Nat} {vs : List α} (h : memReadBlock b n = .ok vs)
    (i : Nat) : memRead (memWriteBlock b vs) i = memRead b i := by
  obtain ⟨rfl, hvs⟩ := (memReadBlock_ok_iff _ _ _).1 h
  rw [memRead_memWriteBlock]
  split
  · next hi => exact (hvs i hi).symm
  · rfl

end

/-- PACK's check accepts the pens that a read of the block answers, if each is in range (R156). -/
theorem scanPens_pens_iff_memReadBlock (b : Buffer Pen) (bound n : Nat) (ps : List Pen) :
    scanPens b bound n = .pens ps ↔ memReadBlock b n = .ok ps ∧ ∀ p ∈ ps, p.toNat < bound := by
  rw [scanPens_pens_iff, memReadBlock_ok_iff, List.forall_mem_iff_getElem]
  constructor
  · rintro ⟨rfl, hps⟩
    refine ⟨⟨rfl, fun k hk => ?_⟩, fun k hk => ?_⟩
    · obtain ⟨p, hp, -, hpk⟩ := hps k hk
      exact hp.trans hpk.symm
    · obtain ⟨p, -, hlt, hpk⟩ := hps k hk
      obtain rfl := Option.some.inj ((List.getElem?_eq_getElem hk).symm.trans hpk)
      exact hlt
  · rintro ⟨⟨rfl, hread⟩, hlt⟩
    refine ⟨rfl, fun k hk => ⟨ps[k], ?_, hlt k hk, List.getElem?_eq_getElem hk⟩⟩
    rw [hread k hk, List.getElem?_eq_getElem hk]

/-! The row-major layouts of pens and bytes are inverse to each other (R194). -/

/-- A slot inside the row holds the pen of its column (R154). -/
theorem penAt_of_lt {m : Mode} {w c k : Nat} (ps : List Pen) (y : Nat) (h : c * ppb m + k < w) :
    penAt m w ps y c k = ps.getD (y * w + (c * ppb m + k)) 0 := by
  rw [penAt, if_pos h, Nat.add_assoc]

/-- A slot holds a pen of the mode if the grid does, pad slots included: they hold pen 0 (R154). -/
theorem penAt_toNat_lt {m : Mode} {ps : List Pen} (hpens : ∀ p ∈ ps, p.toNat < ncol m) (w y c k : Nat) :
    (penAt m w ps y c k).toNat < ncol m := by
  have hzero : (0 : Pen).toNat < ncol m := by cases m <;> decide
  unfold penAt
  split
  · rw [List.getD_eq_getElem?_getD]
    cases hp : ps[y * w + c * ppb m + k]? with
    | none => exact hzero
    | some p => exact hpens p (List.mem_of_getElem? hp)
  · exact hzero

/-- Unpacking the bytes of a grid gives back its pens, whatever the width: pad slots are dropped (R185, R194). -/
theorem unpackGrid_packGrid {m : Mode} {w h : Nat} {ps : List Pen} (hlen : ps.length = w * h)
    (hpens : ∀ p ∈ ps, p.toNat < ncol m) : unpackGrid m w h (packGrid m w h ps) = ps := by
  refine List.ext_getElem ((unpackGrid_length ..).trans hlen.symm) fun i hi hi' => ?_
  have hlt : i < w * h := hlen ▸ hi'
  have hcol : i % w < w := Nat.mod_lt i (Nat.pos_of_lt_mul_right hlt)
  have hslot : i % w / ppb m * ppb m + i % w % ppb m = i % w := Nat.div_add_mod' ..
  have hchunk := chunk_lt_bytesPerRow (m := m) hcol
  have hbyte : i / w * bytesPerRow m w + i % w / ppb m < (packGrid m w h ps).length :=
    (rowMajor_lt (Nat.div_lt_of_lt_mul hlt) hchunk).trans_eq (packGrid_length ..).symm
  obtain ⟨hdiv, hmod⟩ := rowMajor_div_mod (y := i / w) hchunk
  calc (unpackGrid m w h (packGrid m w h ps))[i]
    _ = unpackByte m (packByte m (penAt m w ps (i / w) (i % w / ppb m))) (i % w % ppb m) := by
      rw [unpackGrid_getElem, unpackedPen, List.getD_eq_getElem _ _ hbyte, packGrid_getElem, hdiv, hmod]
    _ = penAt m w ps (i / w) (i % w / ppb m) (i % w % ppb m) :=
      unpackByte_packByte (Nat.mod_lt _ (ppb_pos m)) (penAt_toNat_lt hpens ..)
    _ = ps[i] := by
      rw [penAt_of_lt ps _ (hslot.trans_lt hcol), hslot, Nat.div_add_mod', List.getD_eq_getElem _ _ hi']

/-- Packing the pens of a block gives back its bytes, where the rows are whole chunks (R194). -/
theorem packGrid_unpackGrid {m : Mode} {w h : Nat} {bytes : List Byte} (hwhole : w % ppb m = 0)
    (hlen : bytes.length = bytesPerRow m w * h) : packGrid m w h (unpackGrid m w h bytes) = bytes := by
  refine List.ext_getElem ((packGrid_length ..).trans hlen.symm) fun j hj hj' => ?_
  have hlt : j < bytesPerRow m w * h := hlen ▸ hj'
  have hchunk : j % bytesPerRow m w < bytesPerRow m w := Nat.mod_lt j (Nat.pos_of_lt_mul_right hlt)
  rw [packGrid_getElem, ← packByte_unpackByte m bytes[j]]
  refine packByte_congr m _ _ fun k hk => ?_
  have hcol : j % bytesPerRow m w * ppb m + k < w :=
    (rowMajor_lt hchunk hk).trans_eq ((Nat.mul_comm ..).trans (bytesPerRow_mul hwhole))
  have hpen : j / bytesPerRow m w * w + (j % bytesPerRow m w * ppb m + k) < (unpackGrid m w h bytes).length :=
    (rowMajor_lt (Nat.div_lt_of_lt_mul hlt) hcol).trans_eq (unpackGrid_length ..).symm
  obtain ⟨hrow, hcolumn⟩ := rowMajor_div_mod (y := j / bytesPerRow m w) hcol
  obtain ⟨hbyte, hslot⟩ := rowMajor_div_mod (y := j % bytesPerRow m w) hk
  calc penAt m w (unpackGrid m w h bytes) (j / bytesPerRow m w) (j % bytesPerRow m w) k
    _ = unpackedPen m w bytes (j / bytesPerRow m w) (j % bytesPerRow m w * ppb m + k) := by
      rw [penAt_of_lt _ _ hcol, List.getD_eq_getElem _ _ hpen, unpackGrid_getElem, hrow, hcolumn]
    _ = unpackByte m bytes[j] k := by
      rw [unpackedPen, hbyte, hslot, Nat.div_add_mod', List.getD_eq_getElem _ _ hj']

theorem toNat_lt_of_mem_unpackGrid {m : Mode} {w h : Nat} {bytes : List Byte} {p : Pen}
    (hp : p ∈ unpackGrid m w h bytes) : p.toNat < ncol m := by
  obtain ⟨i, -, rfl⟩ := List.mem_map.1 hp
  exact unpackByte_toNat_lt m _ _

/-! One UNPACK command. -/

section

variable {cfg : Params} {m : Mode} {s : State}

theorem unpackCommand_of_dat_capacity (h : cfg.capDat < s.len.toNat) :
    unpackCommand cfg m s = .next (s.raised .capacity) := if_pos h

theorem unpackCommand_of_width_zero (hl : s.len.toNat ≤ cfg.capDat) (h : s.width = 0) :
    unpackCommand cfg m s = .next (s.raised .malformed) := by
  rw [unpackCommand, if_neg (Nat.not_lt.2 hl), if_pos h, raise]

theorem unpackCommand_of_broken_row (hl : s.len.toNat ≤ cfg.capDat) (hw : s.width ≠ 0)
    (h : s.len.toNat % bytesPerRow m s.width.toNat ≠ 0) :
    unpackCommand cfg m s = .next (s.raised .malformed) := by
  rw [unpackCommand, if_neg (Nat.not_lt.2 hl), if_neg hw, if_pos h, raise]

theorem unpackCommand_of_grid_capacity (hl : s.len.toNat ≤ cfg.capDat) (hw : s.width ≠ 0)
    (hwhole : s.len.toNat % bytesPerRow m s.width.toNat = 0)
    (h : 65535 < s.derivedHeight m ∨ cfg.capGrid < s.width.toNat * s.derivedHeight m) :
    unpackCommand cfg m s = .next (s.raised .capacity) := by
  rw [unpackCommand, if_neg (Nat.not_lt.2 hl), if_neg hw, if_neg (not_not.2 hwhole), if_pos h, raise]

/-- The elements of IDX above the unpacked grid stay (R68). -/
theorem State.unpacked_idx_above (bytes : List Byte) {i : Nat} (h : s.width.toNat * s.derivedHeight m ≤ i) :
    memRead (s.unpacked m bytes).mem.idx i = memRead s.mem.idx i :=
  memRead_memWriteBlock_ge _ _ ((unpackGrid_length ..).trans_le h)

/-- A derived height that passes its check fits HEIGHT (R23, R186). -/
theorem State.unpacked_height (bytes : List Byte) (h : s.derivedHeight m ≤ 65535) :
    (s.unpacked m bytes).height.toNat = s.derivedHeight m := Nat.mod_eq_of_lt (Nat.lt_succ_of_le h)

/-- Rows of the derived height make up the whole block (R182). -/
theorem State.derivedHeight_mul (h : s.len.toNat % bytesPerRow m s.width.toNat = 0) :
    bytesPerRow m s.width.toNat * s.derivedHeight m = s.len.toNat := Nat.mul_div_cancel' (Nat.dvd_of_mod_eq_zero h)

end

/-- UNPACK.m writes IDX, HEIGHT and the records (R29). -/
theorem State.withWritesOf_unpackInstr (m : Mode) (s t : State) :
    s.withWritesOf (unpackInstr m) t =
      { s with
        mem := { s.mem with idx := t.mem.idx }
        height := t.height
        diag := t.diag
        errCnt := t.errCnt
        lastErr := t.lastErr } := by
  cases m <;> rfl

/-- Settles O45: each check raises its error where those before it pass. -/
theorem unpackCommandErrors : Obligations.UnpackCommandErrors := by
  refine ⟨exec_unpackInstr, fun cfg m s hf => ?_⟩
  have hcapacity := s.raised_isolating .capacity hf (by decide)
  have hmalformed := s.raised_isolating .malformed hf (by decide)
  refine ⟨fun h => ?_, fun hl h => ?_, fun hl hw h => ?_, fun hl hw hwhole h => ?_⟩
  · rw [unpackCommand_of_dat_capacity h, hcapacity]
    rfl
  · rw [unpackCommand_of_width_zero hl h, hmalformed]
    rfl
  · rw [unpackCommand_of_broken_row hl hw h, hmalformed]
    rfl
  · rw [unpackCommand_of_grid_capacity hl hw hwhole h, hcapacity]
    rfl

/-- Settles O46: the block is read and unpacked pen by pen, with what `State.withWritesOf` allows as the frame. -/
theorem unpackCommandResult : Obligations.UnpackCommandResult := by
  intro m s _ hl hw hwhole hh hg hwritten
  rw [exec_unpackInstr]
  obtain ⟨bytes, hread⟩ := memReadBlock_of_written hwritten
  obtain ⟨-, hbytes⟩ := (memReadBlock_ok_iff _ _ _).1 hread
  have hexec := unpackCommand_of_read hl hw hwhole hh hg hread
  have hframe := unpackCommand_writes hexec
  rw [State.withWritesOf_unpackInstr] at hframe
  exact ⟨_, hexec, State.unpacked_idx s m bytes hwhole hbytes, fun i => State.unpacked_idx_above bytes,
    State.unpacked_height bytes hh, hframe⟩

/-! PACK and UNPACK in a row (R194). -/

section

variable {cfg : Params} {m : Mode} {s : State}

/-- The block that PACK.m leaves is the packed grid, whole and written (R155, R156). -/
theorem State.packed_block (ps : List Pen) (hd : s.packedSize m ≤ cfg.capDat) :
    memReadBlock (s.packed m ps).mem.dat (s.packed m ps).len.toNat =
      .ok (packGrid m s.width.toNat s.height.toNat ps) := by
  rw [State.packed_len ps hd, State.packedSize, ← packGrid_length m _ _ ps]
  exact memReadBlock_memWriteBlock ..

/-- UNPACK.m derives the height of the grid that PACK.m has packed (R182). -/
theorem State.packed_derivedHeight (ps : List Pen) (hw : s.width ≠ 0) (hd : s.packedSize m ≤ cfg.capDat) :
    (s.packed m ps).derivedHeight m = s.height.toNat := by
  have hwidth : s.width.toNat ≠ 0 := fun h => hw (BitVec.eq_of_toNat_eq h)
  have hsize : (s.packed m ps).derivedHeight m = s.packedSize m / bytesPerRow m s.width.toNat :=
    congrArg (· / bytesPerRow m s.width.toNat) (State.packed_len ps hd)
  rw [hsize, State.packedSize, Nat.mul_div_cancel_left _ (bytesPerRow_pos hwidth)]

/-- The grid that UNPACK.m leaves has the derived height (R186). -/
theorem State.unpacked_gridSize (bytes : List Byte) (hh : s.derivedHeight m ≤ 65535) :
    (s.unpacked m bytes).gridSize = s.width.toNat * s.derivedHeight m :=
  congrArg (s.width.toNat * ·) (State.unpacked_height bytes hh)

/-- PACK.m needs as many bytes for that grid as the block had (R155, R182). -/
theorem State.unpacked_packedSize (bytes : List Byte) (hh : s.derivedHeight m ≤ 65535)
    (hwhole : s.len.toNat % bytesPerRow m s.width.toNat = 0) : (s.unpacked m bytes).packedSize m = s.len.toNat :=
  (congrArg (bytesPerRow m s.width.toNat * ·) (State.unpacked_height bytes hh)).trans (State.derivedHeight_mul hwhole)

/-- PACK's check accepts that grid: every unpacked pen is one of the mode's (R156, R181). -/
theorem State.unpacked_scan (bytes : List Byte) (hh : s.derivedHeight m ≤ 65535) :
    scanPens (s.unpacked m bytes).mem.idx (ncol m) (s.unpacked m bytes).gridSize =
      .pens (unpackGrid m s.width.toNat (s.derivedHeight m) bytes) := by
  rw [State.unpacked_gridSize bytes hh, ← unpackGrid_length m _ _ bytes, scanPens_pens_iff_memReadBlock]
  exact ⟨memReadBlock_memWriteBlock .., fun _ => toNat_lt_of_mem_unpackGrid⟩

end

/-- Settles O47: UNPACK.m reads the bytes that PACK.m has written, and so writes back the pens that PACK.m read. -/
theorem packThenUnpackRestoresGrid : Obligations.PackThenUnpackRestoresGrid := by
  intro m s _ hw hg hd hpens
  simp only [exec_packInstr, exec_unpackInstr]
  obtain ⟨ps, hscan⟩ := scanPens_of_pensOfMode hpens
  obtain ⟨hread, hrange⟩ := (scanPens_pens_iff_memReadBlock _ _ _ ps).1 hscan
  have hlen : ps.length = s.width.toNat * s.height.toNat := ((memReadBlock_ok_iff _ _ _).1 hread).1
  have hheight := State.packed_derivedHeight ps hw hd
  have hwhole : (s.packed m ps).len.toNat % bytesPerRow m s.width.toNat = 0 := by
    rw [State.packed_len ps hd]
    exact Nat.mul_mod_right ..
  have hmax : (s.packed m ps).derivedHeight m ≤ 65535 := hheight.trans_le (Nat.le_of_lt_succ s.height.isLt)
  have hunpack := unpackCommand_of_read (s := (s.packed m ps).setLastErr 0) ((State.packed_len ps hd).trans_le hd) hw
    hwhole hmax ((congrArg _ hheight).trans_le hg) (State.packed_block ps hd)
  refine ⟨_, _, packCommand_of_pens hg hd hscan, hunpack, ?_, rfl, rfl, fun i => ?_⟩
  · change BitVec.ofNat 16 ((s.packed m ps).derivedHeight m) = s.height
    rw [hheight, BitVec.ofNat_toNat, BitVec.setWidth_eq]
  · change memRead (memWriteBlock s.mem.idx (unpackGrid m s.width.toNat ((s.packed m ps).derivedHeight m) _)) i = _
    rw [hheight, unpackGrid_packGrid hlen hrange]
    exact memRead_memWriteBlock_of_memReadBlock hread i

/-- Settles O48: PACK.m reads the pens that UNPACK.m has written, and so writes back the bytes that UNPACK.m read. -/
theorem unpackThenPackRestoresData : Obligations.UnpackThenPackRestoresData := by
  refine ⟨fun m s => ⟨exec_unpackInstr m s, exec_packInstr m s⟩, ?_⟩
  intro cfg m s _ hw hrows hl hwhole hh hg hwritten
  obtain ⟨bytes, hread⟩ := memReadBlock_of_written hwritten
  have hlen : bytes.length = bytesPerRow m s.width.toNat * s.derivedHeight m :=
    ((memReadBlock_ok_iff _ _ _).1 hread).1.trans (State.derivedHeight_mul hwhole).symm
  have hsize := State.unpacked_packedSize bytes hh hwhole
  have hpack := packCommand_of_pens (s := (s.unpacked m bytes).setLastErr 0)
    ((State.unpacked_gridSize bytes hh).trans_le hg) (hsize.trans_le hl) (State.unpacked_scan bytes hh)
  refine ⟨_, _, unpackCommand_of_read hl hw hwhole hh hg hread, hpack, ?_, rfl, fun j => ?_⟩
  · change BitVec.ofNat 24 ((s.unpacked m bytes).packedSize m) = s.len
    rw [hsize, BitVec.ofNat_toNat, BitVec.setWidth_eq]
  · change memRead (memWriteBlock s.mem.dat (packGrid m s.width.toNat (s.unpacked m bytes).height.toNat _)) j = _
    rw [State.unpacked_height bytes hh, packGrid_unpackGrid hrows hlen]
    exact memRead_memWriteBlock_of_memReadBlock hread j

end Sys2Proof.Machine

/-! ## One pen and one RESOLVE command (42_pixel_unpacker R190 to R193) -/

namespace Sys2Proof.Machine

section

variable {cfg : Params} {s : State}

/-- The table has an entry for every ink that may be stored (R190, R218). -/
theorem inkColour_of_lt {k : InkCode} (h : k.toNat < nhw) :
    ∃ c, cfg.hwcol[k.toNat]? = some c ∧ inkColour cfg k = .ok c := by
  have hc : cfg.hwcol[k.toNat]? = some (cfg.hwcol[k.toNat]'h) := Vector.getElem?_eq_getElem h
  exact ⟨_, hc, by rw [inkColour, hwcolEntry, hc]⟩

/-- A mapped pen takes the colour of its ink (R191). -/
theorem resolvePen_of_mapped {q : Pen} (hs : s.storedInksValid) (hv : (s.inkEntry q).v = true) :
    ∃ c, cfg.hwcol[(s.inkEntry q).ink.toNat]? = some c ∧ resolvePen cfg s q = .ok (c, false) := by
  obtain ⟨c, hc, hcolour⟩ := inkColour_of_lt (cfg := cfg) (hs.2 q)
  exact ⟨c, hc, by rw [resolvePen, if_pos hv, hcolour]; rfl⟩

/-- An unmapped pen takes the colour of the background ink where there is one (R191). -/
theorem resolvePen_of_background {q : Pen} (hs : s.storedInksValid) (hv : (s.inkEntry q).v = false)
    (hb : s.bgink.v = true) :
    ∃ c, cfg.hwcol[s.bgink.ink.toNat]? = some c ∧ resolvePen cfg s q = .ok (c, false) := by
  obtain ⟨c, hc, hcolour⟩ := inkColour_of_lt (cfg := cfg) hs.1
  exact ⟨c, hc, by rw [resolvePen, if_neg (by simp [hv]), if_pos hb, hcolour]; rfl⟩

/-- An unmapped pen without a background ink takes the placeholder (R191, R192). -/
theorem resolvePen_of_neither {q : Pen} (hv : (s.inkEntry q).v = false) (hb : s.bgink.v = false) :
    resolvePen cfg s q = .ok (unknownRgb, true) := by
  rw [resolvePen, if_neg (by simp [hv]), if_neg (by simp [hb])]

/-- Without a background ink the placeholder is the mark of an unmapped pen (R191). -/
theorem resolvePen_placeholder_iff {q : Pen} {c : Rgb × Bool} (hs : s.storedInksValid) (hb : s.bgink.v = false)
    (h : resolvePen cfg s q = .ok c) : c.2 = true ↔ (s.inkEntry q).v = false := by
  cases hv : (s.inkEntry q).v with
  | true =>
    obtain ⟨d, -, hd⟩ := resolvePen_of_mapped (cfg := cfg) hs hv
    obtain rfl := Except.ok.inj (h.symm.trans hd)
    simp
  | false =>
    obtain rfl := Except.ok.inj (h.symm.trans (resolvePen_of_neither hv hb))
    simp

/-- `none_mapped` (R193), pen by pen. -/
theorem State.noneMapped_iff : s.noneMapped = true ↔ ∀ q, (s.inkEntry q).v = false := by
  simp only [State.noneMapped, List.all_eq_true, Bool.not_eq_true', Vector.mem_toList_iff]
  constructor
  · exact fun h q => h _ (Vector.getElem_mem q.isLt)
  · intro h e he
    obtain ⟨i, hi, rfl⟩ := Vector.getElem_of_mem he
    exact h (BitVec.ofNatLT i hi)

/-- A placeholder is rendered exactly if a pen of the grid is unmapped, there being no background ink (R193). -/
theorem any_placeholder_iff {qs : List Pen} {cs : List (Rgb × Bool)} (hs : s.storedInksValid) (hb : s.bgink.v = false)
    (h : resolvePens cfg s qs = .ok cs) : cs.any Prod.snd = true ↔ ∃ q ∈ qs, (s.inkEntry q).v = false := by
  induction qs generalizing cs with
  | nil =>
    obtain rfl := Except.ok.inj h
    simp
  | cons q qs ih =>
    obtain ⟨c, hc⟩ := resolvePen_total (cfg := cfg) hs q
    obtain ⟨ds, hds⟩ := resolvePens_total (cfg := cfg) hs qs
    simp only [resolvePens, hc, hds, Except.ok.injEq] at h
    subst h
    rw [List.any_cons, Bool.or_eq_true, resolvePen_placeholder_iff hs hb hc, ih hds, List.exists_mem_cons_iff]

/-- The condition of W_MISSINK (R193): there is no override, and no pen is mapped or one of the grid's is unmapped. -/
def State.missesInk (s : State) (qs : List Pen) : Prop :=
  s.bgink.v = false ∧ ((∀ q, (s.inkEntry q).v = false) ∨ ∃ q ∈ qs, (s.inkEntry q).v = false)

/-- RESOLVE tests that condition on the colours it has computed. -/
theorem State.missesInk_iff {qs : List Pen} {cs : List (Rgb × Bool)} (hs : s.storedInksValid)
    (h : resolvePens cfg s qs = .ok cs) :
    (!s.bgink.v && (s.noneMapped || cs.any Prod.snd)) = true ↔ s.missesInk qs := by
  rw [Bool.and_eq_true, Bool.not_eq_true', Bool.or_eq_true, State.noneMapped_iff]
  exact and_congr_right fun hb => or_congr_right (any_placeholder_iff hs hb h)

theorem State.resolved_warning {qs : List Pen} {cs : List (Rgb × Bool)} (hs : s.storedInksValid)
    (h : resolvePens cfg s qs = .ok cs) (hmiss : s.missesInk qs) :
    (s.resolved cs).diag = s.diag ++ [Warning.missInk.code] := by
  rw [State.resolved, if_pos ((State.missesInk_iff hs h).2 hmiss)]
  rfl

theorem State.resolved_silent {qs : List Pen} {cs : List (Rgb × Bool)} (hs : s.storedInksValid)
    (h : resolvePens cfg s qs = .ok cs) (hmiss : ¬s.missesInk qs) : (s.resolved cs).diag = s.diag := by
  rw [State.resolved, if_neg (mt (State.missesInk_iff hs h).1 hmiss)]
  rfl

/-- Warning or not, the colours go to RGB, and no error is counted (R193). -/
theorem State.resolved_fields (s : State) (cs : List (Rgb × Bool)) :
    (s.resolved cs).mem.rgb = memWriteBlock s.mem.rgb (cs.map Prod.fst) ∧ (s.resolved cs).errCnt = s.errCnt := by
  unfold State.resolved
  dsimp only
  split <;> exact ⟨rfl, rfl⟩

/-- The colour of each pen of the grid goes to its element of RGB (R193). -/
theorem State.resolved_rgb {qs : List Pen} {cs : List (Rgb × Bool)} (h : resolvePens cfg s qs = .ok cs) {i : Nat}
    {q : Pen} (hq : qs[i]? = some q) :
    ∃ c ph, resolvePen cfg s q = .ok (c, ph) ∧ memRead (s.resolved cs).mem.rgb i = some c := by
  obtain ⟨hi, rfl⟩ := List.getElem?_eq_some_iff.1 hq
  obtain ⟨hlen, hcs⟩ := resolvePens_ok h
  obtain ⟨⟨c, ph⟩, hc, hpen⟩ := hcs i hi
  refine ⟨c, ph, hpen, ?_⟩
  rw [(s.resolved_fields cs).1, memRead_memWriteBlock, if_pos (by simpa [hlen] using hi)]
  simp [hc]

/-- The elements of RGB above the grid stay (R68). -/
theorem State.resolved_rgb_above {cs : List (Rgb × Bool)} {i : Nat} (h : cs.length ≤ i) :
    memRead (s.resolved cs).mem.rgb i = memRead s.mem.rgb i := by
  rw [(s.resolved_fields cs).1]
  exact memRead_memWriteBlock_ge _ _ (by simpa using h)

theorem resolveCommand_of_capacity (h : cfg.capGrid < s.gridSize) :
    resolveCommand cfg s = .next (s.raised .capacity) := if_pos h

end

/-- Settles O50: the three paths of `resolve_pen`. -/
theorem resolveOfOnePen : Obligations.ResolveOfOnePen := fun _ _ _ hs =>
  ⟨resolvePen_of_mapped hs, resolvePen_of_background hs, resolvePen_of_neither⟩

/-- Settles O51: a grid that is too large raises its error, and a written one is read, resolved pen by pen and
completed, with what `State.withWritesOf` allows as the frame. -/
theorem resolveCommandResult : Obligations.ResolveCommandResult := by
  refine ⟨decode_encode .resolve, fun s hf => ⟨fun hcap => ?_, fun hg hwritten hs => ?_⟩⟩
  · rw [exec_resolve, resolveCommand_of_capacity hcap, s.raised_isolating .capacity hf (by decide)]
    rfl
  · obtain ⟨qs, hread⟩ := memReadBlock_of_written hwritten
    obtain ⟨hlen, hqs⟩ := (memReadBlock_ok_iff _ _ _).1 hread
    obtain ⟨cs, hcs⟩ := resolvePens_total (cfg := Config.params) hs qs
    have hexec := resolveCommand_of_read hg hread hcs
    have hframe := resolveCommand_writes hexec
    rw [State.withWritesOf, State.setLastErr_errCnt, (s.resolved_fields cs).2] at hframe
    simp only [← exists_mem_iff_of_memReadBlock hread]
    exact ⟨_, hexec, fun i q hi hq => State.resolved_rgb hcs ((hqs i hi).symm.trans hq),
      fun i hi => State.resolved_rgb_above (((resolvePens_ok hcs).1.trans hlen).trans_le hi),
      State.resolved_warning hs hcs, State.resolved_silent hs hcs, hframe⟩

end Sys2Proof.Machine

/-! ## The configuration commands (43_config_commands R211 to R218) -/

namespace Sys2Proof.Machine

/-- `ink_ok` accepts the indices of HWCOL (R218). -/
theorem inkOk_iff (k : InkCode) : inkOk k = true ↔ k.toNat < nhw := decide_eq_true_iff

theorem inkOk_eq_false_iff (k : InkCode) : inkOk k = false ↔ nhw ≤ k.toNat := decide_eq_false_iff_not.trans Nat.not_lt

/-! The stored inks. -/

theorem storedInksValid_issueCommand {w : Word} {s t : State} (h : issueCommand w s = .next t)
    (hs : s.storedInksValid) : t.storedInksValid := by
  obtain rfl | ⟨-, ⟨e, rfl⟩ | hc⟩ := issueCommand_effect h
  · exact hs
  · exact storedInksValid_of_same (State.raised_bgink s e) (State.raised_inkMap s e) hs
  · exact hc.inks hs

theorem storedInksValid_hostAct {a : HostAction} {s t : State} (h : hostAct a s = .next t)
    (hs : s.storedInksValid) : t.storedInksValid := by
  obtain ⟨w, -, hw⟩ | ⟨i, e, -, -, rfl⟩ | ⟨sp, i, e, -, -, rfl⟩ | ⟨n, v, -, -, rfl⟩ | ⟨-, rfl⟩ := hostAct_next_cases h
  · exact storedInksValid_issueCommand hw hs
  · exact storedInksValid_of_same rfl rfl hs
  · exact storedInksValid_of_same rfl rfl hs
  · exact storedInksValid_of_same rfl rfl hs
  · exact storedInksValid_of_same rfl rfl reset_storedInksValid

/-- Settles O16: no action but a command that completes writes an ink, and such a command writes checked inks alone
(`Completed.inks`). -/
theorem stepKeepsStoredInksValid : Obligations.StepKeepsStoredInksValid := by
  refine ⟨fun k => (inkOk_iff k).trans Nat.lt_succ_iff, reset_storedInksValid, fun s t hs h => ?_⟩
  obtain ⟨-, rfl⟩ | ⟨a, rest, -, ha⟩ := step_next_cases h
  · exact hs
  · exact storedInksValid_hostAct ha (storedInksValid_of_same rfl rfl hs)

/-! HEIGHT and LEN as outputs of UNPACK and PACK. -/

section

variable {cfg : Params} {m : Mode} {s t : State}

/-- UNPACK.m does not look at HEIGHT: with another value there it raises the same error, or completes and overwrites it
(R186, R212). -/
theorem unpackCommand_setHeight (h : unpackCommand cfg m s = .next t) (v : BitVec 16) :
    unpackCommand cfg m (s.setHeight v) = .next (if t.lastErr = 0 then t else t.setHeight v) := by
  have raises {e : ErrorKind}
      (hc : ∀ v, unpackCommand cfg m (s.setHeight v) = .next ((s.setHeight v).raised e)) :
      unpackCommand cfg m (s.setHeight v) = .next (if t.lastErr = 0 then t else t.setHeight v) := by
    obtain rfl : t = s.raised e := Host.Outcome.next.inj (h.symm.trans (hc s.height))
    have hcode : (s.raised e).lastErr ≠ 0 := e.code_ne_zero
    rw [if_neg hcode]
    exact hc v
  obtain hcap | hl := Nat.lt_or_ge cfg.capDat s.len.toNat
  · exact raises fun _ => unpackCommand_of_dat_capacity hcap
  by_cases hw : s.width = 0
  · exact raises fun _ => unpackCommand_of_width_zero hl hw
  by_cases hwhole : s.len.toNat % bytesPerRow m s.width.toNat = 0
  case neg => exact raises fun _ => unpackCommand_of_broken_row hl hw hwhole
  by_cases hbig : 65535 < s.derivedHeight m ∨ cfg.capGrid < s.width.toNat * s.derivedHeight m
  · exact raises fun _ => unpackCommand_of_grid_capacity hl hw hwhole hbig
  obtain ⟨hh, hg⟩ : s.derivedHeight m ≤ 65535 ∧ s.width.toNat * s.derivedHeight m ≤ cfg.capGrid := by omega
  cases hr : memReadBlock s.mem.dat s.len.toNat with
  | error i => exact nomatch h.symm.trans (unpackCommand_of_unwritten hl hw hwhole hh hg hr)
  | ok bytes =>
    obtain rfl := Host.Outcome.next.inj (h.symm.trans (unpackCommand_of_read hl hw hwhole hh hg hr))
    exact unpackCommand_of_read (s := s.setHeight v) hl hw hwhole hh hg hr

/-- PACK.m does not look at LEN: with another value there it raises the same error, or completes and overwrites it
(R156, R213). -/
theorem packCommand_setLen (h : packCommand cfg m s = .next t) (v : BitVec 24) :
    packCommand cfg m (s.setLen v) = .next (if t.lastErr = 0 then t else t.setLen v) := by
  obtain ⟨hcap, hc⟩ | ⟨hg, hd, ⟨i, -, hc⟩ | ⟨hscan, hc⟩ | ⟨ps, hscan, hc⟩⟩ := packCommand_cases cfg m s
  · rw [hc] at h; cases h
    exact packCommand_of_capacity (s := s.setLen v) hcap
  · rw [hc] at h; cases h
  · rw [hc] at h; cases h
    exact packCommand_of_outOfRange (s := s.setLen v) hg hd hscan
  · rw [hc] at h; cases h
    exact packCommand_of_pens (s := s.setLen v) hg hd hscan

end

/-- Settles O49: neither command looks at the register it writes. -/
theorem outputRegistersAreNotInputs : Obligations.OutputRegistersAreNotInputs := by
  simp only [Obligations.OutputRegistersAreNotInputs, exec_unpackInstr, exec_packInstr]
  exact ⟨fun _ _ _ v h => unpackCommand_setHeight h v, fun _ _ _ v h => packCommand_setLen h v⟩

/-! One configuration command. -/

/-- Settles O26: the word is the one `encode` gives. -/
theorem setWidthCommand : Obligations.SetWidthCommand := fun n => ⟨decode_encode (.setw n), fun _ _ => rfl⟩

/-- Settles O27: as for SETW. -/
theorem setHeightAndLengthCommands : Obligations.SetHeightAndLengthCommands :=
  ⟨fun n => ⟨decode_encode (.seth n), fun _ _ => rfl⟩, fun n => ⟨decode_encode (.setlen n), fun _ _ => rfl⟩⟩

/-- Settles O28: V has no say in what is stored. -/
theorem setTransparentInkCommand : Obligations.SetTransparentInkCommand := fun v idx =>
  ⟨decode_encode (.setti v idx), fun _ _ => rfl⟩

theorem execSetbg_clear (ink : InkCode) (s : State) :
    execSetbg false ink s = .next ((s.setBgink { v := false, ink := 0 }).setLastErr 0) := rfl

theorem execSetbg_of_lt {ink : InkCode} (h : ink.toNat < nhw) (s : State) :
    execSetbg true ink s = .next ((s.setBgink { v := true, ink := ink }).setLastErr 0) :=
  if_pos ((inkOk_iff ink).2 h)

theorem execSetbg_of_ge {ink : InkCode} (h : nhw ≤ ink.toNat) (s : State) :
    execSetbg true ink s = .next ((s.emit Warning.inkSkip.code).setLastErr 0) := by
  rw [execSetbg, if_neg (by decide), if_neg (by simp [(inkOk_eq_false_iff ink).2 h]), complete]

/-- Settles O29: one equation a case. -/
theorem setBackgroundInkCommand : Obligations.SetBackgroundInkCommand := by
  refine fun v ink => ⟨decode_encode (.setbg v ink), fun s _ => ⟨?_, ?_, ?_⟩⟩
  · rintro rfl
    exact execSetbg_clear ink s
  · rintro rfl hk
    exact execSetbg_of_lt hk s
  · rintro rfl hk
    exact execSetbg_of_ge hk s

section

variable {policy : DupPenPolicy} {pen : Pen} {ink : InkCode} {s : State}

theorem setInkCommand_of_ge (h : nhw ≤ ink.toNat) :
    setInkCommand policy pen ink s = .next ((s.emit Warning.inkSkip.code).setLastErr 0) :=
  if_pos ((inkOk_eq_false_iff ink).2 h)

/-- A duplicate pen is reported under either policy, and the later ink is stored under last_wins alone (R216). -/
theorem setInkCommand_of_mapped (h : ink.toNat < nhw) (hv : (s.inkEntry pen).v = true) :
    setInkCommand policy pen ink s = .next
      (((s.emit Warning.inkDup.code).setInkMap
        (if policy = .lastWins then s.inkMap.set pen.toNat { v := true, ink := ink } pen.isLt
          else s.inkMap)).setLastErr 0) := by
  rw [setInkCommand, if_neg (by simp [(inkOk_iff ink).2 h]), if_pos hv]
  cases policy with
  | firstWins => rfl
  | lastWins => rfl

theorem setInkCommand_of_unmapped (h : ink.toNat < nhw) (hv : (s.inkEntry pen).v = false) :
    setInkCommand policy pen ink s = .next ((s.setInkEntry pen { v := true, ink := ink }).setLastErr 0) := by
  rw [setInkCommand, if_neg (by simp [(inkOk_iff ink).2 h]), if_neg (by simp [hv])]
  rfl

end

theorem State.inkEntry_setInkMap_replicate (s : State) (e : InkEntry) (q : Pen) :
    (s.setInkMap (Vector.replicate 16 e)).inkEntry q = e := Vector.getElem_replicate q.isLt

/-- Settles O31: every entry takes the one value, and LASTERR is the only other register written. -/
theorem clearInkCommand : Obligations.ClearInkCommand :=
  ⟨decode_encode .clrink, fun s _ => ⟨_, rfl, s.inkEntry_setInkMap_replicate _, rfl⟩⟩

end Sys2Proof.Machine

namespace Sys2Proof

/-- Settles O30: one equation a case. It stands here because the model's `Machine.setInkCommand` has the name too. -/
theorem setInkCommand : Obligations.SetInkCommand := fun pen ink =>
  ⟨decode_encode (.setink pen ink), fun _ _ =>
    ⟨Machine.setInkCommand_of_ge, Machine.setInkCommand_of_mapped, Machine.setInkCommand_of_unmapped⟩⟩

end Sys2Proof

/-! ## Errors and what they record: one error raised, FATAL, waiting, the codes that are written, and that the records
have no say in a later command (60_exceptions R241 to R250) -/

namespace Sys2Proof.Machine

theorem step_of_no_action {s : State} (h : s.hostQueue = []) : step s = .next s := by
  unfold step nextAction
  rw [h]

/-- Settles O8: the queue's empty case. -/
theorem engineWaitsWithoutAction : Obligations.EngineWaitsWithoutAction := fun _ => step_of_no_action

theorem issueCommand_of_fatal {w : Word} {s : State} (hf : s.fatal = true) : issueCommand w s = .next s := if_pos hf

/-- Settles O6: the decode procedure alone looks at FATAL, and ends there; each access has its own lemma. -/
theorem fatalIgnoresEveryCommand : Obligations.FatalIgnoresEveryCommand := by
  refine fun s rest hf => ⟨fun w hq => ?_, fun n v hq hv => ?_, fun sp i e hq hi he => ?_, fun i e hq hi => ?_⟩
  · exact (step_of_action hq).trans (issueCommand_of_fatal hf)
  · exact step_readReg_of_some hq hv
  · exact (step_of_action hq).trans (hostRead_of_written hi he)
  · exact (step_of_action hq).trans (hostWrite_of_lt hi)

/-- FATAL after an error: set by the mode error, kept by the others (R246, R249). -/
theorem State.raised_fatal_eq_ite (s : State) (e : ErrorKind) :
    (s.raised e).fatal = if e = .mode then true else s.fatal := by
  cases e <;> simp [ErrorKind.isFatal]

/-- Settles O9: a command that ends with LASTERR not 0 has not completed, so it has raised one error and done nothing
else (`exec_next_cases`). -/
theorem raisedErrorIsPrecise : Obligations.RaisedErrorIsPrecise := by
  refine ⟨fun e s => ⟨countError s.errCnt, countError_toNat s.errCnt, ?_⟩, fun i s t h hne => ?_⟩
  · rw [← s.raised_fatal_eq_ite]
    rfl
  · obtain ⟨e, rfl⟩ | hc := exec_next_cases h
    · exact ⟨e, rfl, rfl⟩
    · exact absurd hc.lastErr hne

theorem codesKnown_of_sameRecords {s t : State} (h : SameRecords s t) (hs : s.codesKnown) : t.codesKnown := by
  simpa only [State.codesKnown, h.lastErr, h.diag] using hs

theorem codesKnown_raised {s : State} (e : ErrorKind) (hs : s.codesKnown) : (s.raised e).codesKnown := by
  refine ⟨.inr ⟨e, rfl⟩, fun c hc => ?_⟩
  obtain hold | hnew := List.mem_append.1 hc
  · exact hs.2 c hold
  · exact .inl ⟨e, List.mem_singleton.1 hnew⟩

theorem codesKnown_completed {s t : State} (h : Completed s t) (hs : s.codesKnown) : t.codesKnown := by
  obtain ⟨ws, -, hd⟩ := h.events.diag_eq_append_warnings
  refine ⟨.inl h.lastErr, fun c hc => ?_⟩
  rw [hd] at hc
  obtain hold | hnew := List.mem_append.1 hc
  · exact hs.2 c hold
  · obtain ⟨w, -, rfl⟩ := List.mem_map.1 hnew
    exact .inr ⟨w, rfl⟩

/-- Settles O20: an error writes its own code to LASTERR and the trace, a completed command 0 to LASTERR and warnings to
the trace. -/
theorem stepKeepsCodesKnown : Obligations.StepKeepsCodesKnown := fun _ _ =>
  step_keeps_of_records codesKnown_of_sameRecords reset_codesKnown (fun e _ => codesKnown_raised e)
    fun _ => codesKnown_completed

/-! The records have no say in a later command (R248): run from two states that differ in them alone, a command takes
the same branch at each of its tests, and what it leaves differs in them alone. -/

/-- The state with other records of errors. -/
def State.withRecords (s : State) (l : BitVec 4) (n : BitVec 32) (d : List DiagCode) : State :=
  { s with lastErr := l, errCnt := n, diag := d }

theorem State.sameButRecords_iff {s t : State} : s.sameButRecords t ↔ ∃ l n d, t = s.withRecords l n d := by
  constructor
  · exact fun h => ⟨_, _, _, h⟩
  · rintro ⟨l, n, d, rfl⟩
    rfl

/-- Two outcomes of a command that agree but for the records: the same fault, or next states with the same LASTERR that
differ at most in the records. -/
inductive AgreeButRecords : Result → Result → Prop
  | next {t t' : State} (same : t.sameButRecords t') (lastErr : t'.lastErr = t.lastErr) :
      AgreeButRecords (.next t) (.next t')
  | fault (f : Fault) : AgreeButRecords (.fault f) (.fault f)

theorem AgreeButRecords.complete {t t' : State} (h : t.sameButRecords t') :
    AgreeButRecords (complete t) (complete t') := by
  obtain ⟨l, n, d, rfl⟩ := State.sameButRecords_iff.1 h
  exact .next rfl rfl

theorem AgreeButRecords.exists_of_next {t : State} {r : Result} (h : AgreeButRecords (.next t) r) :
    ∃ t', r = .next t' ∧ t.sameButRecords t' ∧ t'.lastErr = t.lastErr := by
  cases h with
  | next same lastErr => exact ⟨_, rfl, same, lastErr⟩

theorem AgreeButRecords.eq_of_fault {f : Fault} {r : Result} (h : AgreeButRecords (.fault f) r) : r = .fault f := by
  cases h
  rfl

/-- Two tests with one outcome are related where both their branches are. -/
theorem ite_rel_ite {α : Type} {R : α → α → Prop} {p : Prop} [Decidable p] {x x' y y' : α} (hx : R x x')
    (hy : R y y') : R (if p then x else y) (if p then x' else y') := by
  split
  · exact hx
  · exact hy

section

variable {cfg : Params} {m : Mode} {s : State} {l : BitVec 4} {n : BitVec 32} {d : List DiagCode}

@[simp] theorem State.withRecords_mem : (s.withRecords l n d).mem = s.mem := rfl
@[simp] theorem State.withRecords_len : (s.withRecords l n d).len = s.len := rfl
@[simp] theorem State.withRecords_gridSize : (s.withRecords l n d).gridSize = s.gridSize := rfl

theorem raise_agrees (e : ErrorKind) : AgreeButRecords (raise e s) (raise e (s.withRecords l n d)) :=
  .next rfl rfl

theorem State.noteInexact_withRecords : s.noteInexact.sameButRecords (s.withRecords l n d).noteInexact :=
  ite_rel_ite (R := State.sameButRecords) rfl rfl

theorem State.matched_withRecords (pxs : List Pixel) :
    (s.matched cfg m pxs).sameButRecords ((s.withRecords l n d).matched cfg m pxs) :=
  ite_rel_ite (R := State.sameButRecords) (State.noteInexact_withRecords (l := l) (n := n) (d := d)) rfl

theorem State.resolved_withRecords (cs : List (Rgb × Bool)) :
    (s.resolved cs).sameButRecords ((s.withRecords l n d).resolved cs) :=
  ite_rel_ite (R := State.sameButRecords) rfl rfl

theorem resolvePens_withRecords (qs : List Pen) : resolvePens cfg (s.withRecords l n d) qs = resolvePens cfg s qs := by
  induction qs with
  | nil => rfl
  | cons q qs ih =>
    have hq : resolvePen cfg (s.withRecords l n d) q = resolvePen cfg s q := rfl
    rw [resolvePens, resolvePens, hq, ih]

theorem matchCommand_agrees : AgreeButRecords (matchCommand cfg m s) (matchCommand cfg m (s.withRecords l n d)) := by
  refine ite_rel_ite (raise_agrees .capacity) ?_
  rw [State.withRecords_mem, State.withRecords_gridSize]
  cases memReadBlock s.mem.pix s.gridSize with
  | error i => exact .fault _
  | ok pxs => exact .complete (State.matched_withRecords pxs)

theorem packCommand_agrees : AgreeButRecords (packCommand cfg m s) (packCommand cfg m (s.withRecords l n d)) := by
  refine ite_rel_ite (raise_agrees .capacity) ?_
  rw [State.withRecords_mem, State.withRecords_gridSize]
  cases scanPens s.mem.idx (ncol m) s.gridSize with
  | unwritten i => exact .fault _
  | outOfRange => exact raise_agrees .index
  | pens ps => exact .complete rfl

theorem unpackCommand_agrees : AgreeButRecords (unpackCommand cfg m s) (unpackCommand cfg m (s.withRecords l n d)) := by
  refine ite_rel_ite (raise_agrees .capacity) (ite_rel_ite (raise_agrees .malformed)
    (ite_rel_ite (raise_agrees .malformed) (ite_rel_ite (raise_agrees .capacity) ?_)))
  rw [State.withRecords_mem, State.withRecords_len]
  cases memReadBlock s.mem.dat s.len.toNat with
  | error i => exact .fault _
  | ok bytes => exact .complete rfl

theorem resolveCommand_agrees : AgreeButRecords (resolveCommand cfg s) (resolveCommand cfg (s.withRecords l n d)) := by
  refine ite_rel_ite (raise_agrees .capacity) ?_
  rw [State.withRecords_mem, State.withRecords_gridSize]
  cases memReadBlock s.mem.idx s.gridSize with
  | error i => exact .fault _
  | ok qs =>
    simp only [resolvePens_withRecords]
    cases resolvePens cfg s qs with
    | error k => exact .fault _
    | ok cs => exact .complete (State.resolved_withRecords cs)

theorem execSetbg_agrees (v : Bool) (ink : InkCode) :
    AgreeButRecords (execSetbg v ink s) (execSetbg v ink (s.withRecords l n d)) :=
  ite_rel_ite (.complete rfl) (ite_rel_ite (.complete rfl) (.complete rfl))

theorem setInkCommand_agrees (policy : DupPenPolicy) (pen : Pen) (ink : InkCode) :
    AgreeButRecords (setInkCommand policy pen ink s) (setInkCommand policy pen ink (s.withRecords l n d)) := by
  refine ite_rel_ite (.complete rfl) (ite_rel_ite ?_ (.complete rfl))
  cases policy with
  | firstWins => exact .complete rfl
  | lastWins => exact .complete rfl

/-- No command looks at the records (R248). -/
theorem exec_agrees (i : Instr) : AgreeButRecords (exec i s) (exec i (s.withRecords l n d)) := by
  cases i with
  | setw | seth | setlen | setti | clrink => exact .complete rfl
  | setbg v ink => exact execSetbg_agrees v ink
  | setink pen ink => exact setInkCommand_agrees _ pen ink
  | match0 | match1 | match2 => exact matchCommand_agrees
  | pack0 | pack1 | pack2 => exact packCommand_agrees
  | unpack0 | unpack1 | unpack2 => exact unpackCommand_agrees
  | resolve => exact resolveCommand_agrees
  | match3 | pack3 | unpack3 => exact raise_agrees .mode

end

/-- Settles O13: the two outcomes agree but for the records (`exec_agrees`), and the clauses are the two kinds of
agreement. -/
theorem recordsDoNotInfluenceCommands : Obligations.RecordsDoNotInfluenceCommands := by
  intro i s s' h
  obtain ⟨l, n, d, rfl⟩ := State.sameButRecords_iff.1 h
  have agree : AgreeButRecords (exec i s) (exec i (s.withRecords l n d)) := exec_agrees i
  exact ⟨fun t ht => (ht ▸ agree).exists_of_next, fun f hf => (hf ▸ agree).eq_of_fault⟩

end Sys2Proof.Machine
